-- ==== Sys2Proof/Word.lean ====
section
/-! DEFINITION. The value types of chip8_interpreter: bytes, words, 12-bit addresses, register and key
numbers, the keypad latch and the framebuffer (00_scope.md R6, R8, R9; 10_state.md R20). -/

namespace Sys2Proof

/-- A byte: a general register, a timer, a memory byte, the field NN (R6 `XLEN`; R72). -/
abbrev Byte := BitVec 8

/-- A 16-bit word: I, PC, a stack entry, an opcode word (R6 `ILEN`, `PCLEN`; R36). -/
abbrev Word := BitVec 16

/-- The 12-bit address field NNN of an opcode word (R10, R72). -/
abbrev Addr := BitVec 12

/-- A register number, 0 to 15; `VF` is number 15, `V0` number 0 (R21). -/
abbrev RegIdx := Fin 16

/-- A key number, 0x0 to 0xF (R33). -/
abbrev KeyIdx := Fin 16

/-- The keypad latch: `KEY[k]` is entry `k`, `true` when key `k` is pressed (R33). -/
abbrev Keypad := Vector Bool 16

/-- The framebuffer: row `y` (0 to 31) of columns `x` (0 to 63), `true` when the pixel is on (R32). -/
abbrev Framebuffer := Vector (Vector Bool 64) 32

end Sys2Proof
end

