-- ==== Sys2Proof/Syntax.lean ====
section
/-! DEFINITION. The 35 instructions of spec/opcode_table.json, one constructor a row, in the table's order
(30_encoding.md R73). Operand fields: X and Y register numbers, NN a byte, NNN a 12-bit address, N a row count. -/

namespace Sys2Proof

/-- The instruction set (R73). Every field keeps the bits the word has, the ignored ones too (R80). -/
inductive Instr where
  /-- 00E0 CLS (R170) -/
  | cls
  /-- 00EE RET (R110) -/
  | ret
  /-- 0NNN SYS nnn, NNN ignored (R111) -/
  | sys (nnn : Addr)
  /-- 1NNN JP nnn (R112) -/
  | jp (nnn : Addr)
  /-- 2NNN CALL nnn (R113) -/
  | call (nnn : Addr)
  /-- 3XNN SE Vx, nn (R115) -/
  | seVxNn (x : RegIdx) (nn : Byte)
  /-- 4XNN SNE Vx, nn (R116) -/
  | sneVxNn (x : RegIdx) (nn : Byte)
  /-- 5XY0 SE Vx, Vy (R117) -/
  | seVxVy (x y : RegIdx)
  /-- 9XY0 SNE Vx, Vy (R118) -/
  | sneVxVy (x y : RegIdx)
  /-- 6XNN LD Vx, nn (R130) -/
  | ldVxNn (x : RegIdx) (nn : Byte)
  /-- 7XNN ADD Vx, nn (R131) -/
  | addVxNn (x : RegIdx) (nn : Byte)
  /-- 8XY0 LD Vx, Vy (R132) -/
  | ldVxVy (x y : RegIdx)
  /-- 8XY1 OR Vx, Vy (R133) -/
  | orVxVy (x y : RegIdx)
  /-- 8XY2 AND Vx, Vy (R134) -/
  | andVxVy (x y : RegIdx)
  /-- 8XY3 XOR Vx, Vy (R135) -/
  | xorVxVy (x y : RegIdx)
  /-- 8XY4 ADD Vx, Vy (R136) -/
  | addVxVy (x y : RegIdx)
  /-- 8XY5 SUB Vx, Vy (R137) -/
  | subVxVy (x y : RegIdx)
  /-- 8XY6 SHR Vx, Y ignored (R138) -/
  | shrVx (x y : RegIdx)
  /-- 8XY7 SUBN Vx, Vy (R139) -/
  | subnVxVy (x y : RegIdx)
  /-- 8XYE SHL Vx, Y ignored (R140) -/
  | shlVx (x y : RegIdx)
  /-- ANNN LD I, nnn (R150) -/
  | ldINnn (nnn : Addr)
  /-- BNNN JP V0, nnn (R114) -/
  | jpV0Nnn (nnn : Addr)
  /-- CXNN RND Vx, nn (R141) -/
  | rndVxNn (x : RegIdx) (nn : Byte)
  /-- DXYN DRW Vx, Vy, n (R171) -/
  | drwVxVyN (x y : RegIdx) (n : Fin 16)
  /-- EX9E SKP Vx (R180) -/
  | skpVx (x : RegIdx)
  /-- EXA1 SKNP Vx (R181) -/
  | sknpVx (x : RegIdx)
  /-- FX07 LD Vx, DT (R183) -/
  | ldVxDt (x : RegIdx)
  /-- FX15 LD DT, Vx (R184) -/
  | ldDtVx (x : RegIdx)
  /-- FX18 LD ST, Vx (R185) -/
  | ldStVx (x : RegIdx)
  /-- FX1E ADD I, Vx (R151) -/
  | addIVx (x : RegIdx)
  /-- FX0A LD Vx, K (R182) -/
  | ldVxK (x : RegIdx)
  /-- FX29 LD F, Vx (R152) -/
  | ldFVx (x : RegIdx)
  /-- FX33 LD B, Vx (R153) -/
  | ldBVx (x : RegIdx)
  /-- FX55 LD [I], Vx (R154) -/
  | stV0Vx (x : RegIdx)
  /-- FX65 LD Vx, [I] (R155) -/
  | ldV0Vx (x : RegIdx)
deriving DecidableEq, Repr

end Sys2Proof
end

