-- ==== Sys2Proof/WellFormed.lean ====
section
/-! DEFINITION. Which terms of `Instr` are instructions. The operand types carry every range; the one check
left is that of 30_encoding.md R74: 0x00E0 and 0x00EE are CLS and RET, so SYS does not hold 0x0E0 or 0x0EE. -/

namespace Sys2Proof

/-- The well-formed instructions (R73 row 3, R74): every operand value the encoding admits. -/
def Instr.wellFormed : Instr → Bool
  | .sys nnn => nnn != 0x0E0#12 && nnn != 0x0EE#12
  | .cls | .ret | .jp _ | .call _ | .seVxNn _ _ | .sneVxNn _ _ | .seVxVy _ _ | .sneVxVy _ _
  | .ldVxNn _ _ | .addVxNn _ _ | .ldVxVy _ _ | .orVxVy _ _ | .andVxVy _ _ | .xorVxVy _ _
  | .addVxVy _ _ | .subVxVy _ _ | .shrVx _ _ | .subnVxVy _ _ | .shlVx _ _ | .ldINnn _ | .jpV0Nnn _
  | .rndVxNn _ _ | .drwVxVyN _ _ _ | .skpVx _ | .sknpVx _ | .ldVxDt _ | .ldDtVx _ | .ldStVx _
  | .addIVx _ | .ldVxK _ | .ldFVx _ | .ldBVx _ | .stV0Vx _ | .ldV0Vx _ => true

end Sys2Proof
end

