-- ==== Sys2Proof/Decode.lean ====
section
/-! DEFINITION. The decoder, total on all bytes and rejecting by name, the encoder, and the machine-readable
decode table (30_encoding.md R70 to R83; fields 00_scope.md R9, R10). -/

namespace Sys2Proof

/-! ## Fields of an opcode word -/

/-- `w[hi:lo]`, the unsigned integer made of bits hi down to lo (R9). -/
def slice (w : Word) (hi lo : Nat) : Nat := w.toNat / 2 ^ lo % 2 ^ (hi - lo + 1)

/-- `F = op[15:12]`, the group nibble (R10). -/
def fieldF (w : Word) : Nat := slice w 15 12

/-- `X = op[11:8]` (R10). -/
def fieldX (w : Word) : RegIdx := Fin.ofNat 16 (slice w 11 8)

/-- `Y = op[7:4]` (R10). -/
def fieldY (w : Word) : RegIdx := Fin.ofNat 16 (slice w 7 4)

/-- `N = op[3:0]` (R10). -/
def fieldN (w : Word) : Fin 16 := Fin.ofNat 16 (slice w 3 0)

/-- `NN = op[7:0]` (R10). -/
def fieldNN (w : Word) : Byte := BitVec.ofNat 8 (slice w 7 0)

/-- `NNN = op[11:0]` (R10). -/
def fieldNNN (w : Word) : Addr := BitVec.ofNat 12 (slice w 11 0)

/-- The word fetched from two bytes, big-endian: `high * 256 + low` (R9, R52). -/
def wordOfBytes (high low : Byte) : Word := BitVec.ofNat 16 (high.toNat * 256 + low.toNat)

/-- The first byte of a word in memory, `op[15:8]` (R52). -/
def highByte (w : Word) : Byte := BitVec.ofNat 8 (slice w 15 8)

/-- The second byte of a word in memory, `op[7:0]` (R52). -/
def lowByte (w : Word) : Byte := BitVec.ofNat 8 (slice w 7 0)

/-! ## The decoder -/

/-- Group 0: two whole words, and every other word is 0NNN (R74). -/
def decodeGroup0 (w : Word) : Instr :=
  if w = 0x00E0#16 then .cls else if w = 0x00EE#16 then .ret else .sys (fieldNNN w)

/-- Group 8 dispatches on the low nibble; 8 to 0xD and 0xF name no operation (R75). -/
def decodeGroup8 (w : Word) : Option Instr :=
  match slice w 3 0 with
  | 0x0 => some (.ldVxVy (fieldX w) (fieldY w))
  | 0x1 => some (.orVxVy (fieldX w) (fieldY w))
  | 0x2 => some (.andVxVy (fieldX w) (fieldY w))
  | 0x3 => some (.xorVxVy (fieldX w) (fieldY w))
  | 0x4 => some (.addVxVy (fieldX w) (fieldY w))
  | 0x5 => some (.subVxVy (fieldX w) (fieldY w))
  | 0x6 => some (.shrVx (fieldX w) (fieldY w))
  | 0x7 => some (.subnVxVy (fieldX w) (fieldY w))
  | 0xE => some (.shlVx (fieldX w) (fieldY w))
  | _ => none

/-- Group E dispatches on the low byte (R77). -/
def decodeGroupE (w : Word) : Option Instr :=
  match slice w 7 0 with
  | 0x9E => some (.skpVx (fieldX w))
  | 0xA1 => some (.sknpVx (fieldX w))
  | _ => none

/-- Group F dispatches on the low byte (R78). -/
def decodeGroupF (w : Word) : Option Instr :=
  match slice w 7 0 with
  | 0x07 => some (.ldVxDt (fieldX w))
  | 0x0A => some (.ldVxK (fieldX w))
  | 0x15 => some (.ldDtVx (fieldX w))
  | 0x18 => some (.ldStVx (fieldX w))
  | 0x1E => some (.addIVx (fieldX w))
  | 0x29 => some (.ldFVx (fieldX w))
  | 0x33 => some (.ldBVx (fieldX w))
  | 0x55 => some (.stV0Vx (fieldX w))
  | 0x65 => some (.ldV0Vx (fieldX w))
  | _ => none

/-- The function `decode(op)` of R94: the one instruction whose row of R73 the word matches, `none` for the
DecodeError words of R79. It reads nothing but the word. -/
def decodeWord (w : Word) : Option Instr :=
  match fieldF w with
  | 0x0 => some (decodeGroup0 w)
  | 0x1 => some (.jp (fieldNNN w))
  | 0x2 => some (.call (fieldNNN w))
  | 0x3 => some (.seVxNn (fieldX w) (fieldNN w))
  | 0x4 => some (.sneVxNn (fieldX w) (fieldNN w))
  | 0x5 => if slice w 3 0 = 0 then some (.seVxVy (fieldX w) (fieldY w)) else none
  | 0x6 => some (.ldVxNn (fieldX w) (fieldNN w))
  | 0x7 => some (.addVxNn (fieldX w) (fieldNN w))
  | 0x8 => decodeGroup8 w
  | 0x9 => if slice w 3 0 = 0 then some (.sneVxVy (fieldX w) (fieldY w)) else none
  | 0xA => some (.ldINnn (fieldNNN w))
  | 0xB => some (.jpV0Nnn (fieldNNN w))
  | 0xC => some (.rndVxNn (fieldX w) (fieldNN w))
  | 0xD => some (.drwVxVyN (fieldX w) (fieldY w) (fieldN w))
  | 0xE => decodeGroupE w
  | _ => decodeGroupF w

/-- Why a byte sequence holds no instruction at its start. -/
inductive DecodeReject where
  /-- The first two bytes are a DecodeError word (R79). -/
  | noInstruction (op : Word)
  /-- Fewer than two bytes: every instruction is exactly two (R70). -/
  | truncated
deriving DecidableEq, Repr

/-- Decode the instruction at the start of a byte sequence and return what follows it (R70, R73). -/
def decode : List Byte → Except DecodeReject (Instr × List Byte)
  | high :: low :: rest =>
    match decodeWord (wordOfBytes high low) with
    | some i => .ok (i, rest)
    | none => .error (.noInstruction (wordOfBytes high low))
  | _ => .error .truncated

/-! ## The encoder -/

/-- Format NNN (R71). -/
def formatNNN (f : Nat) (nnn : Addr) : Word := BitVec.ofNat 16 (f * 4096 + nnn.toNat)

/-- Format XNN, and format X with its fixed low byte (R71). -/
def formatXNN (f : Nat) (x : RegIdx) (nn : Byte) : Word :=
  BitVec.ofNat 16 (f * 4096 + x.val * 256 + nn.toNat)

/-- Format XYN, and format XY with its fixed low nibble (R71). -/
def formatXYN (f : Nat) (x y : RegIdx) (n : Fin 16) : Word :=
  BitVec.ofNat 16 (f * 4096 + x.val * 256 + y.val * 16 + n.val)

/-- The word of an instruction, from the formats of R71 and the values of R73. -/
def encode : Instr → Word
  | .cls => 0x00E0#16
  | .ret => 0x00EE#16
  | .sys nnn => formatNNN 0x0 nnn
  | .jp nnn => formatNNN 0x1 nnn
  | .call nnn => formatNNN 0x2 nnn
  | .seVxNn x nn => formatXNN 0x3 x nn
  | .sneVxNn x nn => formatXNN 0x4 x nn
  | .seVxVy x y => formatXYN 0x5 x y 0x0
  | .sneVxVy x y => formatXYN 0x9 x y 0x0
  | .ldVxNn x nn => formatXNN 0x6 x nn
  | .addVxNn x nn => formatXNN 0x7 x nn
  | .ldVxVy x y => formatXYN 0x8 x y 0x0
  | .orVxVy x y => formatXYN 0x8 x y 0x1
  | .andVxVy x y => formatXYN 0x8 x y 0x2
  | .xorVxVy x y => formatXYN 0x8 x y 0x3
  | .addVxVy x y => formatXYN 0x8 x y 0x4
  | .subVxVy x y => formatXYN 0x8 x y 0x5
  | .shrVx x y => formatXYN 0x8 x y 0x6
  | .subnVxVy x y => formatXYN 0x8 x y 0x7
  | .shlVx x y => formatXYN 0x8 x y 0xE
  | .ldINnn nnn => formatNNN 0xA nnn
  | .jpV0Nnn nnn => formatNNN 0xB nnn
  | .rndVxNn x nn => formatXNN 0xC x nn
  | .drwVxVyN x y n => formatXYN 0xD x y n
  | .skpVx x => formatXNN 0xE x 0x9E#8
  | .sknpVx x => formatXNN 0xE x 0xA1#8
  | .ldVxDt x => formatXNN 0xF x 0x07#8
  | .ldDtVx x => formatXNN 0xF x 0x15#8
  | .ldStVx x => formatXNN 0xF x 0x18#8
  | .addIVx x => formatXNN 0xF x 0x1E#8
  | .ldVxK x => formatXNN 0xF x 0x0A#8
  | .ldFVx x => formatXNN 0xF x 0x29#8
  | .ldBVx x => formatXNN 0xF x 0x33#8
  | .stV0Vx x => formatXNN 0xF x 0x55#8
  | .ldV0Vx x => formatXNN 0xF x 0x65#8

/-- The two bytes of an instruction as memory holds them, high byte first (R52). -/
def encodeBytes (i : Instr) : List Byte := [highByte (encode i), lowByte (encode i)]

/-! ## The decode table as data -/

/-- One row of the decode table: `op & mask == value` selects it (R83). -/
structure OpcodeRow where
  mnemonic : String
  mask : Word
  value : Word
deriving DecidableEq, Repr

/-- The 35 rows of R73, tried in order, so that CLS and RET are taken before SYS (R83). -/
def opcodeTable : List OpcodeRow :=
  [⟨"CLS", 0xFFFF, 0x00E0⟩, ⟨"RET", 0xFFFF, 0x00EE⟩, ⟨"SYS", 0xF000, 0x0000⟩, ⟨"JP", 0xF000, 0x1000⟩,
   ⟨"CALL", 0xF000, 0x2000⟩, ⟨"SE_VX_NN", 0xF000, 0x3000⟩, ⟨"SNE_VX_NN", 0xF000, 0x4000⟩,
   ⟨"SE_VX_VY", 0xF00F, 0x5000⟩, ⟨"SNE_VX_VY", 0xF00F, 0x9000⟩] ++
  [⟨"LD_VX_NN", 0xF000, 0x6000⟩, ⟨"ADD_VX_NN", 0xF000, 0x7000⟩, ⟨"LD_VX_VY", 0xF00F, 0x8000⟩,
   ⟨"OR_VX_VY", 0xF00F, 0x8001⟩, ⟨"AND_VX_VY", 0xF00F, 0x8002⟩, ⟨"XOR_VX_VY", 0xF00F, 0x8003⟩,
   ⟨"ADD_VX_VY", 0xF00F, 0x8004⟩, ⟨"SUB_VX_VY", 0xF00F, 0x8005⟩, ⟨"SHR_VX", 0xF00F, 0x8006⟩,
   ⟨"SUBN_VX_VY", 0xF00F, 0x8007⟩, ⟨"SHL_VX", 0xF00F, 0x800E⟩] ++
  [⟨"LD_I_NNN", 0xF000, 0xA000⟩, ⟨"JP_V0_NNN", 0xF000, 0xB000⟩, ⟨"RND_VX_NN", 0xF000, 0xC000⟩,
   ⟨"DRW_VX_VY_N", 0xF000, 0xD000⟩, ⟨"SKP_VX", 0xF0FF, 0xE09E⟩, ⟨"SKNP_VX", 0xF0FF, 0xE0A1⟩,
   ⟨"LD_VX_DT", 0xF0FF, 0xF007⟩, ⟨"LD_DT_VX", 0xF0FF, 0xF015⟩, ⟨"LD_ST_VX", 0xF0FF, 0xF018⟩,
   ⟨"ADD_I_VX", 0xF0FF, 0xF01E⟩, ⟨"LD_VX_K", 0xF0FF, 0xF00A⟩, ⟨"LD_F_VX", 0xF0FF, 0xF029⟩,
   ⟨"LD_B_VX", 0xF0FF, 0xF033⟩, ⟨"ST_V0_VX", 0xF0FF, 0xF055⟩, ⟨"LD_V0_VX", 0xF0FF, 0xF065⟩]

/-- The mnemonic of the first row a word selects, `none` for a DecodeError word (R83). -/
def tableMnemonic (w : Word) : Option String :=
  (opcodeTable.find? fun r => w &&& r.mask == r.value).map (·.mnemonic)

/-- An instruction's table id (R81). -/
def Instr.mnemonic : Instr → String
  | .cls => "CLS" | .ret => "RET" | .sys _ => "SYS" | .jp _ => "JP" | .call _ => "CALL"
  | .seVxNn _ _ => "SE_VX_NN" | .sneVxNn _ _ => "SNE_VX_NN" | .seVxVy _ _ => "SE_VX_VY"
  | .sneVxVy _ _ => "SNE_VX_VY" | .ldVxNn _ _ => "LD_VX_NN" | .addVxNn _ _ => "ADD_VX_NN"
  | .ldVxVy _ _ => "LD_VX_VY" | .orVxVy _ _ => "OR_VX_VY" | .andVxVy _ _ => "AND_VX_VY"
  | .xorVxVy _ _ => "XOR_VX_VY" | .addVxVy _ _ => "ADD_VX_VY" | .subVxVy _ _ => "SUB_VX_VY"
  | .shrVx _ _ => "SHR_VX" | .subnVxVy _ _ => "SUBN_VX_VY" | .shlVx _ _ => "SHL_VX"
  | .ldINnn _ => "LD_I_NNN" | .jpV0Nnn _ => "JP_V0_NNN" | .rndVxNn _ _ => "RND_VX_NN"
  | .drwVxVyN _ _ _ => "DRW_VX_VY_N" | .skpVx _ => "SKP_VX" | .sknpVx _ => "SKNP_VX"
  | .ldVxDt _ => "LD_VX_DT" | .ldDtVx _ => "LD_DT_VX" | .ldStVx _ => "LD_ST_VX"
  | .addIVx _ => "ADD_I_VX" | .ldVxK _ => "LD_VX_K" | .ldFVx _ => "LD_F_VX"
  | .ldBVx _ => "LD_B_VX" | .stV0Vx _ => "ST_V0_VX" | .ldV0Vx _ => "LD_V0_VX"

/-! ## The host's question -/

/-- What the decoder reads from an instruction whose bits are `w`, numbered as opcode_table.json numbers them
(bit 0 the least significant of the 16-bit word); bits above `nbits` are 0. The word is laid out as memory
holds it, high byte first, and given to `decode`. -/
def decodeTableWord (nbits w : Nat) : Option Instr :=
  let op := BitVec.ofNat 16 (w % 2 ^ nbits)
  match decode [highByte op, lowByte op] with
  | .ok (i, _) => some i
  | .error _ => none

end Sys2Proof
end

