-- ==== Sys2Proof/Config.lean ====
section
/-! DEFINITION. The parameters the source leaves open (00_scope.md R7): the defaults the spec gives STACK_DEPTH, FONT
and KEY_PICK, RAND as a free value about which nothing can be proved, and the four as one argument `Params` with these
defaults.
The fixed parameters of R6 stand in the definitions as the numerals the spec's pseudocode writes. -/

namespace Sys2Proof.Config

/-- `STACK_DEPTH`, the largest number of call-stack entries (R7, R25; the default of decision D1).
UNVERIFIED, safe (log 2): the reference software is unbounded; more faults are admitted here. -/
def stackDepth : Nat := 16

/-- `FONT`, the 80 bytes of `MEM[0x050..0x09F]` at reset, glyph 0 first, 5 bytes a glyph (R7, R31).
UNVERIFIED, unsafe (log 3): the table is the spec's default, from general knowledge (decision D3). -/
def font : List Byte :=
  [0xF0, 0x90, 0x90, 0x90, 0xF0] ++ [0x20, 0x60, 0x20, 0x20, 0x70] ++
  [0xF0, 0x10, 0xF0, 0x80, 0xF0] ++ [0xF0, 0x10, 0xF0, 0x10, 0xF0] ++
  [0x90, 0x90, 0xF0, 0x10, 0x10] ++ [0xF0, 0x80, 0xF0, 0x10, 0xF0] ++
  [0xF0, 0x80, 0xF0, 0x90, 0xF0] ++ [0xF0, 0x10, 0x20, 0x40, 0x40] ++
  [0xF0, 0x90, 0xF0, 0x90, 0xF0] ++ [0xF0, 0x90, 0xF0, 0x10, 0xF0] ++
  [0xF0, 0x90, 0xF0, 0x90, 0x90] ++ [0xE0, 0x90, 0xE0, 0x90, 0xE0] ++
  [0xF0, 0x80, 0x80, 0x80, 0xF0] ++ [0xE0, 0x90, 0x90, 0x90, 0xE0] ++
  [0xF0, 0x80, 0xF0, 0x80, 0xF0] ++ [0xF0, 0x80, 0xF0, 0x80, 0x80]

/-- `KEY_PICK`, which key FX0A takes when several are pressed: the lowest-numbered pressed key (R7, R182; the default of
decision D6). Where none is pressed nobody asks, and the answer is key 0. UNVERIFIED, unsafe (log 4): the other members
of the set are reached through `Params.keyPick`. -/
def keyPick (k : Keypad) : KeyIdx := ((List.finRange 16).find? fun i => k[i]).getD 0

/-- `RAND`: the random byte of the n-th execution of CXNN (R7, R37, R141, U7). A free value: a function
with no body of the counter `State.draws`. DESIGN CHOICE, safe (log 5). -/
opaque rand : Nat → Byte

end Sys2Proof.Config

namespace Sys2Proof

/-- The four parameters of R7 as ONE argument, each with its default: the machine at any other depth, font, choice of
key or sequence of random bytes is `stepWith`, `resetWith` and `perform` at another value of this structure
(92_eei_decisions.md D1, D3, D6, D17; 93_implementation_defined.md U5, U6, U7, U17; log 32). It is no part of the state. -/
structure Params where
  /-- `STACK_DEPTH` (log 2). -/
  stackDepth : Nat := Config.stackDepth
  /-- `FONT`, exactly the 80 bytes of 0x050..0x09F (log 3). -/
  font : Vector Byte 80 := ⟨Config.font.toArray, rfl⟩
  /-- `KEY_PICK`; any answer that is not a pressed key stands for the smallest pressed one (log 4). -/
  keyPick : Keypad → KeyIdx := Config.keyPick
  /-- `RAND`, the n-th draw (log 5). -/
  rand : Nat → Byte := Config.rand

end Sys2Proof
end

