-- ==== Sys2Proof/Machine/State.lean ====
section
/-! DEFINITION. The state of chip8_interpreter (10_state.md R20: "a model's state type has exactly these
components"), the reasons a step can stop, and the state after reset (R38). Plain data throughout. -/

namespace Sys2Proof.Machine

/-- Memory as data: the cells that differ from the reset contents, addresses strictly rising (log 7). The
operations and the canonical form `Memory.wf` are in Machine/Ops.lean. -/
structure Memory where
  cells : List Host.Cell
deriving DecidableEq, Repr

/-- The three fatal conditions (60_exceptions.md R190, R197). -/
inductive FatalCause where
  /-- 00EE on an empty call stack, code 3 (R193). -/
  | stackUnderflow
  /-- 2NNN on a full call stack, code 4 (R194). -/
  | stackOverflow
  /-- An access beyond 0xFFF, code 5 (R195). -/
  | outOfBoundsAccess
deriving DecidableEq, Repr

/-- The contents of `FAULT`: the cause and the information word (R35, R197). -/
structure FaultRecord where
  cause : FatalCause
  info : Word
deriving DecidableEq, Repr

/-- Why a step stops. -/
inductive Fault where
  /-- Raised by `step` alone, on a machine whose HALTED is set: the step changes nothing and surfaces the
  recorded `FAULT` (R92, R96, R196: a halted state is "a fault that is never final"). No instruction raises
  it. Safe: nothing runs past it (log 1). -/
  | halted (record : Option FaultRecord)
deriving DecidableEq, Repr

/-- Why an instruction has no meaning. -/
inductive Refusal where
  /-- Raised by an arm of `exec` that is not modelled yet; no arm of this model is. Safe: the step answers no
  state. -/
  | notModelled (mnemonic : String)
deriving DecidableEq, Repr

/-- The complete state of the hardware: exactly the eleven components of R20. `ArchState.step` (Machine/Parametric.lean)
is the spec's step(RAND) over this type. -/
structure ArchState where
  /-- V0 to VF; VF is the flag register (R21, R22). -/
  v : Vector Byte 16
  /-- The index register, never masked (R24). -/
  i : Word
  /-- The program counter (R28). -/
  pc : Word
  /-- The call stack, top entry first (R25). -/
  stack : List Word
  /-- The delay timer (R34). -/
  dt : Byte
  /-- The sound timer (R34). -/
  st : Byte
  /-- The keypad latch, written by the host alone (R33). -/
  key : Keypad
  /-- The framebuffer (R32). -/
  fb : Framebuffer
  /-- The 4096 bytes of memory (R31, R50). -/
  mem : Memory
  /-- Set by a fatal condition, cleared by reset only (R35). -/
  halted : Bool
  /-- `none`, or the condition that set `halted` (R35, R197). -/
  fault : Option FaultRecord
deriving DecidableEq, Repr

/-- What the host's one-argument step runs on: the state of R20 and, beside it, the model's place in the sequence of
RAND inputs (R37, R92; log 5). -/
structure State extends ArchState where
  /-- THE MODEL'S OWN field, no component of the hardware: how many RAND inputs have been consumed; `Config.rand` of it
  is the next one (log 5). -/
  draws : Nat
deriving DecidableEq, Repr

/-- The state after the reset operation: the table of R38 (log 6 for the values the spec marks as its own
decision; memory lists nothing, so every byte reads as the reset contents, FONT included). `draws := 0` is a
DESIGN CHOICE (log 5): no statement rests on it. -/
def State.reset : State where
  v := Vector.replicate 16 0x00#8
  i := 0x0000#16
  pc := 0x0200#16
  stack := []
  dt := 0x00#8
  st := 0x00#8
  key := Vector.replicate 16 false
  fb := Vector.replicate 32 (Vector.replicate 64 false)
  mem := ⟨[]⟩
  halted := false
  fault := none
  draws := 0

end Sys2Proof.Machine
end

