-- ==== Sys2Proof/Machine/Ops.lean ====
section
/-! DEFINITION. The named operations over memory, registers, the call stack and the framebuffer, raising a
fatal condition as one shared operation, and the fetch (20_memory.md R50 to R66; 10_state.md R21 to R32;
60_exceptions.md R195 to R199; 40_cycle_and_host_ops.md R93). -/

namespace Sys2Proof.Machine

/-! ## Memory -/

/-- The reset contents of an address, which is what an unlisted address reads as: FONT in 0x050..0x09F, 0x00
everywhere else (R31, R38, R51; logs 3, 6, 7). -/
def resetByte (a : Nat) : Byte :=
  if 0x050 ≤ a ∧ a ≤ 0x09F then Config.font.getD (a - 0x050) 0x00#8 else 0x00#8

/-- The byte a cell list holds for an address, if it lists it. -/
def cellAt (a : Nat) : List Host.Cell → Option Byte
  | [] => none
  | (a', b) :: cells => if a = a' then some b else cellAt a cells

/-- Put a cell at its place in a rising list, over the one of the same address if there is one. -/
def insertCell (a : Nat) (b : Byte) : List Host.Cell → List Host.Cell
  | [] => [(a, b)]
  | (a', b') :: cells =>
    if a < a' then (a, b) :: (a', b') :: cells
    else if a = a' then (a, b) :: cells
    else (a', b') :: insertCell a b cells

/-- Take the cell of an address out of a list. -/
def eraseCell (a : Nat) : List Host.Cell → List Host.Cell
  | [] => []
  | (a', b') :: cells => if a = a' then cells else (a', b') :: eraseCell a cells

/-- The canonical form of a cell list from address `lo` on: addresses strictly rising and at most 0xFFF, no
entry equal to the reset contents of its address. -/
def cellsWf (lo : Nat) : List Host.Cell → Bool
  | [] => true
  | (a, b) :: cells => decide (lo ≤ a) && decide (a ≤ 0xFFF) && (b != resetByte a) && cellsWf (a + 1) cells

/-- The canonical form of memory: equal contents are equal data (log 7). -/
def Memory.wf (m : Memory) : Bool := cellsWf 0 m.cells

/-- `MemRead(addr, 1)`: `none` stands for `raise OutOfBoundsAccess(addr)`; the address is an exact integer,
never masked (R55). -/
def Memory.read (m : Memory) (addr : Nat) : Option Byte :=
  if addr > 0xFFF then none else some ((cellAt addr m.cells).getD (resetByte addr))

/-- `MemWrite(addr, 1, b)`: `none` stands for `raise OutOfBoundsAccess(addr)` (R56). A byte equal to the reset
contents is not listed, which keeps the canonical form. -/
def Memory.write (m : Memory) (addr : Nat) (b : Byte) : Option Memory :=
  if addr > 0xFFF then none
  else some ⟨if b = resetByte addr then eraseCell addr m.cells else insertCell addr b m.cells⟩

/-- The byte at an address whose range has been checked (R156): `MemRead` there always answers. -/
def Memory.byteAt (m : Memory) (addr : Nat) : Byte := (m.read addr).getD 0x00#8

/-- Store consecutive bytes upward from an address whose range has been checked (R153, R154, R90): each is one
`MemWrite`. -/
def Memory.storeBytes (m : Memory) (addr : Nat) : List Byte → Memory
  | [] => m
  | b :: bytes => ((m.write addr b).getD m).storeBytes (addr + 1) bytes

/-- Whether all of `base .. base + n - 1` lies in memory; an empty range always does (R156, R171). -/
def inRange (base n : Nat) : Bool := decide (n = 0 ∨ base + n - 1 ≤ 0xFFF)

/-! ## Writing one component of the state -/

/-- `V[x]` (R11, R21). -/
def State.reg (s : State) (x : RegIdx) : Byte := s.v[x]

/-- `V[x] <- b` (R11, R21). -/
def State.setReg (s : State) (x : RegIdx) (b : Byte) : State := { s with v := s.v.set x b }

/-- `V[15] <- 1 if flag else 0`, the flag register written as a flag (R22). -/
def State.setVF (s : State) (flag : Bool) : State := s.setReg 15 (if flag then 0x01#8 else 0x00#8)

/-- All sixteen registers at once. -/
def State.setRegs (s : State) (v : Vector Byte 16) : State := { s with v := v }

/-- `I <- w`. -/
def State.setI (s : State) (w : Word) : State := { s with i := w }

/-- `PC <- w`, the only form of control transfer (R11, R119). -/
def State.setPc (s : State) (w : Word) : State := { s with pc := w }

/-- Write the call stack. -/
def State.setStack (s : State) (l : List Word) : State := { s with stack := l }

/-- `DT <- b`. -/
def State.setDt (s : State) (b : Byte) : State := { s with dt := b }

/-- `ST <- b`. -/
def State.setSt (s : State) (b : Byte) : State := { s with st := b }

/-- Write the keypad latch; the host's key input alone does (R33, R98). -/
def State.setKeys (s : State) (k : Keypad) : State := { s with key := k }

/-- Write the framebuffer. -/
def State.setFb (s : State) (f : Framebuffer) : State := { s with fb := f }

/-- Write memory. -/
def State.setMem (s : State) (m : Memory) : State := { s with mem := m }

/-- One random byte more has been consumed (R37; log 5). -/
def State.countDraw (s : State) : State := { s with draws := s.draws + 1 }

/-- The result to `V[x]` first, the flag to `V[15]` last, unconditionally (R23, R129; log 8). -/
def State.setResultFlag (s : State) (x : RegIdx) (result : Byte) (flag : Bool) : State :=
  (s.setReg x result).setVF flag

/-! ## Taking a fatal condition -/

/-- `raise <fatal condition>(info)`: HALTED <- 1 and FAULT <- (cause, info), nothing else changes, and there is
no handler, no saved PC and no return but reset (R92 `on fatal`, R196, R198, R199, R202; log 15). -/
def State.raise (s : State) (cause : FatalCause) (info : Word) : State :=
  { s with halted := true, fault := some ⟨cause, info⟩ }

/-- The information word of a data access out of bounds: the lowest address of the range that is out of bounds,
`max(base, 0x1000)` (R156, R195). -/
def outOfBoundsInfo (base : Nat) : Word := BitVec.ofNat 16 (max base 0x1000)

/-- Check the whole range an instruction will access, and raise OutOfBoundsAccess before anything is read or
written when any of it lies beyond 0xFFF (R156, R195, R198). -/
def State.guardRange (s : State) (base n : Nat) (body : State) : State :=
  if inRange base n then body else s.raise .outOfBoundsAccess (outOfBoundsInfo base)

/-! ## The call stack -/

/-- `push(w)`, at the bound `STACK_DEPTH`: `none` stands for `raise StackOverflow(w)`, the stack unchanged (R27; log 2). -/
def State.push (s : State) (w : Word) (depth : Nat := Config.stackDepth) : Option State :=
  if s.stack.length < depth then some (s.setStack (w :: s.stack)) else none

/-- `pop()`: the removed top entry and the state without it; `none` stands for `raise StackUnderflow(0)` (R27). -/
def State.pop (s : State) : Option (Word × State) :=
  match s.stack with
  | [] => none
  | w :: rest => some (w, s.setStack rest)

/-! ## The program counter and the fetch -/

/-- `PC <- PC + 2`: the advance of the fetch (R93), and a skip over the next instruction (R13, R119). -/
def State.advance (s : State) : State := s.setPc (s.pc + 2#16)

/-- Skip the next instruction when the condition holds (R115 to R118, R180, R181). -/
def State.skipIf (s : State) (condition : Bool) : State := if condition then s.advance else s

/-- `MemRead(PC, 2)`: the opcode word at PC, big-endian; `none` stands for `raise OutOfBoundsAccess(PC)`
(R52, R55, R57, R93; log 16). -/
def State.fetch (s : State) : Option Word :=
  match s.mem.read s.pc.toNat, s.mem.read (s.pc.toNat + 1) with
  | some high, some low => some (wordOfBytes high low)
  | _, _ => none

/-- One fetch-decode-execute cycle around the execute part `run` (R92), in the order of tests of R200: HALTED, fetch
bounds, decode, the instruction. A halted machine surfaces its recorded fault and changes nothing (R96); a fetch out of
bounds leaves PC at P (R57, R199); a word that is no instruction leaves only PC advanced (R95). A fatal condition is a
NEXT state, with HALTED and FAULT written (log 1). -/
def fetchExecute (run : Instr → State → Host.Outcome State Fault Refusal) (s : State) :
    Host.Outcome State Fault Refusal :=
  if s.halted then .fault (.halted s.fault)
  else
    match s.fetch with
    | none => .next (s.raise .outOfBoundsAccess s.pc)
    | some op =>
      match decodeWord op with
      | some i => run i s.advance
      | none => .next s.advance

/-- Place a word where `fetch` reads it: its high byte at PC, its low byte at PC + 1 (R52). -/
def State.placeWord (s : State) (w : Word) : State :=
  s.setMem (s.mem.storeBytes s.pc.toNat [highByte w, lowByte w])

/-! ## The framebuffer -/

/-- `FB[y][x]`; `false` outside the grid (R11, R32). -/
def pixel (f : Framebuffer) (y x : Nat) : Bool :=
  (f.getD y (Vector.replicate 64 false)).getD x false

/-- `FB[y][x] <- FB[y][x] ^ 1` (R171); nothing outside the grid. -/
def flipPixel (f : Framebuffer) (y x : Nat) : Framebuffer :=
  f.setIfInBounds y ((f.getD y (Vector.replicate 64 false)).setIfInBounds x (!pixel f y x))

/-- All 2048 pixels off (R170). -/
def clearedFb : Framebuffer := Vector.replicate 32 (Vector.replicate 64 false)

/-- A framebuffer being drawn on, with the pseudocode's `hit` (R171). -/
structure Canvas where
  fb : Framebuffer
  hit : Bool
deriving DecidableEq, Repr

/-- Draw one set sprite pixel: a hit when the pixel was on, and the pixel inverted (R171). -/
def Canvas.plot (c : Canvas) (y x : Nat) : Canvas :=
  { fb := flipPixel c.fb y x, hit := c.hit || pixel c.fb y x }

end Sys2Proof.Machine
end

