-- ==== Sys2Proof/Machine/Operands.lean ====
section
/-! DEFINITION. Every operand form of the instruction set: immediates and addresses widened, the key and glyph a
register selects, decimal digits, register lists, sprite coordinates and bits, the pressed key, the random byte. -/

namespace Sys2Proof.Machine

/-- NNN zero-extended to 16 bits (R72, R112, R113, R150). -/
def zextAddr (nnn : Addr) : Word := nnn.setWidth 16

/-- `V0 + NNN`, the exact sum, at most 0x10FE, not masked (R114; log 19). -/
def State.jumpTarget (s : State) (nnn : Addr) : Word := (s.reg 0).setWidth 16 + zextAddr nnn

/-- `(I + VX) mod 65536`, VX zero-extended (R151; log 9). -/
def indexPlus (i : Word) (b : Byte) : Word := i + b.setWidth 16

/-- `0x050 + 5 * VX`, all 8 bits of VX (R152; log 12). -/
def glyphAddr (b : Byte) : Word := BitVec.ofNat 16 (0x050 + 5 * b.toNat)

/-- The decimal digits of a byte, hundreds, tens, ones (R153). -/
def bcdDigits (b : Byte) : List Byte :=
  [BitVec.ofNat 8 (b.toNat / 100), BitVec.ofNat 8 (b.toNat / 10 % 10), BitVec.ofNat 8 (b.toNat % 10)]

/-- `V[0], …, V[x]` (R154). -/
def State.regsUpTo (s : State) (x : RegIdx) : List Byte := s.v.toList.take (x.val + 1)

/-- `V[0..x]` loaded from `MEM[base .. base + x]`, the registers above x as they were (R155). -/
def State.loadedRegs (s : State) (x : RegIdx) (base : Nat) : Vector Byte 16 :=
  Vector.ofFn fun r : Fin 16 => if r ≤ x then s.mem.byteAt (base + r.val) else s.reg r

/-- The key a register selects: the low 4 bits of VX (R180, R181; log 13). -/
def keyIndex (b : Byte) : KeyIdx := Fin.ofNat 16 b.toNat

/-- `KEY[VX mod 16]` (R180, R181). -/
def State.keyPressed (s : State) (x : RegIdx) : Bool := s.key[keyIndex (s.reg x)]

/-- The pressed keys, smallest first (R182). -/
def pressedKeys (k : Keypad) : List KeyIdx := (List.finRange 16).filter fun i => k[i]

/-- `KEY_PICK(pressed)`: none when no key is pressed, the key when one is, and some member of the set when several
are: the answer of `pick` if it is pressed, else the smallest (R182, R7; log 4). -/
def pickKey (k : Keypad) (pick : Keypad → KeyIdx := Config.keyPick) : Option KeyIdx :=
  match pressedKeys k with
  | [] => none
  | [i] => some i
  | i :: _ => some (if k[pick k] then pick k else i)

/-- The register value of a key number, 0 to 15 (R182 corner case d). -/
def keyByte (k : KeyIdx) : Byte := BitVec.ofNat 8 k.val

/-- `RAND`: the random byte this execution of CXNN consumes, a free value (R37, R141; log 5). -/
def State.randByte (s : State) : Byte := Config.rand s.draws

/-- `V[X] mod 64`, the column of a sprite's left edge (R171). -/
def spriteX (b : Byte) : Nat := b.toNat % 64

/-- `V[Y] mod 32`, the row of a sprite's top edge (R171). -/
def spriteY (b : Byte) : Nat := b.toNat % 32

/-- `b[7 - c]`: the sprite bit of column offset c, bit 7 the leftmost (R171; log 18). -/
def spriteBit (b : Byte) (c : Nat) : Bool := b.getLsbD (7 - c)

end Sys2Proof.Machine
end

