-- ==== Sys2Proof/Machine/Flags.lean ====
section
/-! DEFINITION. Every flag computation of the instruction set: what the six flag-writing instructions put into VF
(10_state.md R22; 42_load_and_alu.md R136 to R140; 44_display.md R171). All comparisons are unsigned (R128). -/

namespace Sys2Proof.Machine

/-- Carry of 8XY4: 1 exactly when the unsigned sum exceeds 255 (R136). -/
def carryFlag (a b : Byte) : Bool := decide (a.toNat + b.toNat > 255)

/-- The flag of 8XY5 and 8XY7: 1 when the minuend is strictly greater than the subtrahend (R137, R139). -/
def greaterFlag (minuend subtrahend : Byte) : Bool := decide (minuend.toNat > subtrahend.toNat)

/-- Bit 0 before a right shift (R138). -/
def lowBit (a : Byte) : Bool := a.getLsbD 0

/-- Bit 7 before a left shift (R140). -/
def highBit (a : Byte) : Bool := a.getLsbD 7

/-- One sprite row drawn at row y: column offsets 0 to 7, those right of the grid clipped; the flag of DXYN is the
canvas's `hit` (R171). -/
def Canvas.drawRow (c : Canvas) (b : Byte) (y x0 : Nat) : Canvas :=
  (List.range 8).foldl
    (fun c k => if x0 + k ≤ 63 ∧ spriteBit b k = true then c.plot y (x0 + k) else c) c

/-- The n rows of a sprite, top row first, those below the grid clipped (R171). -/
def Canvas.drawSprite (c : Canvas) (rowByte : Nat → Byte) (y0 x0 n : Nat) : Canvas :=
  (List.range n).foldl
    (fun c r => if y0 + r ≤ 31 then c.drawRow (rowByte r) (y0 + r) x0 else c) c

end Sys2Proof.Machine
end

