-- ==== Sys2Proof/Machine/ControlFlow.lean ====
section
/-! DEFINITION. The meanings of the control-flow instructions (41_control_flow.md R110 to R119). In every meaning
`s.pc` is the already advanced program counter P + 2 (40_cycle_and_host_ops.md R93). -/

namespace Sys2Proof.Machine

/-- 00EE RET: `PC <- pop()` (R110, R193). -/
def execRet (s : State) : Host.Outcome State Fault Refusal :=
  match s.pop with
  | some (w, t) => .next (t.setPc w)
  | none => .next (s.raise .stackUnderflow 0x0000#16)

/-- 0NNN SYS: nothing, NNN ignored (R111). -/
def execSys (_nnn : Addr) (s : State) : Host.Outcome State Fault Refusal := .next s

/-- 1NNN JP: `PC <- NNN` (R112). -/
def execJp (nnn : Addr) (s : State) : Host.Outcome State Fault Refusal := .next (s.setPc (zextAddr nnn))

/-- 2NNN CALL at a given STACK_DEPTH: `push(PC)`, `PC <- NNN` (R113, R194; R7). -/
def execCallDepth (depth : Nat) (nnn : Addr) (s : State) : Host.Outcome State Fault Refusal :=
  match s.push s.pc depth with
  | some t => .next (t.setPc (zextAddr nnn))
  | none => .next (s.raise .stackOverflow s.pc)

/-- 2NNN CALL at the default STACK_DEPTH (R113, R194; log 2). -/
def execCall (nnn : Addr) (s : State) : Host.Outcome State Fault Refusal := execCallDepth Config.stackDepth nnn s

/-- BNNN JP V0: `PC <- V0 + NNN` (R114; log 19). -/
def execJpV0Nnn (nnn : Addr) (s : State) : Host.Outcome State Fault Refusal := .next (s.setPc (s.jumpTarget nnn))

/-- 3XNN SE: skip if VX = NN (R115). -/
def execSeVxNn (x : RegIdx) (nn : Byte) (s : State) : Host.Outcome State Fault Refusal :=
  .next (s.skipIf (s.reg x == nn))

/-- 4XNN SNE: skip if VX ≠ NN (R116). -/
def execSneVxNn (x : RegIdx) (nn : Byte) (s : State) : Host.Outcome State Fault Refusal :=
  .next (s.skipIf (s.reg x != nn))

/-- 5XY0 SE: skip if VX = VY (R117). -/
def execSeVxVy (x y : RegIdx) (s : State) : Host.Outcome State Fault Refusal :=
  .next (s.skipIf (s.reg x == s.reg y))

/-- 9XY0 SNE: skip if VX ≠ VY (R118). -/
def execSneVxVy (x y : RegIdx) (s : State) : Host.Outcome State Fault Refusal :=
  .next (s.skipIf (s.reg x != s.reg y))

end Sys2Proof.Machine
end

