-- ==== Sys2Proof/Machine/Display.lean ====
section
/-! DEFINITION. The meanings of the display instructions (44_display.md R170 to R172). -/

namespace Sys2Proof.Machine

/-- 00E0 CLS: every pixel off, VF not written (R170). -/
def execCls (s : State) : Host.Outcome State Fault Refusal := .next (s.setFb clearedFb)

/-- The canvas after the sprite of DXYN is drawn on the framebuffer of `s` (R171). -/
def State.drawn (s : State) (x y : RegIdx) (n : Fin 16) : Canvas :=
  Canvas.drawSprite ⟨s.fb, false⟩ (fun r => s.mem.byteAt (s.i.toNat + r))
    (spriteY (s.reg y)) (spriteX (s.reg x)) n.val

/-- DXYN DRW: the sprite exclusive-ORed onto the framebuffer, then the collision to VF, both after the whole range
`I .. I+N-1` has been checked (R171; log 18). -/
def execDrwVxVyN (x y : RegIdx) (n : Fin 16) (s : State) : Host.Outcome State Fault Refusal :=
  .next (s.guardRange s.i.toNat n.val ((s.setFb (s.drawn x y n).fb).setVF (s.drawn x y n).hit))

end Sys2Proof.Machine
end

