-- ==== Sys2Proof/Machine/IndexMemory.lean ====
section
/-! DEFINITION. The meanings of the index-register and memory instructions (43_index_and_memory.md R150 to R156).
I is never changed by an access (log 11); the whole range is checked before any effect (log 15). -/

namespace Sys2Proof.Machine

/-- ANNN LD I: `I <- NNN` (R150). -/
def execLdINnn (nnn : Addr) (s : State) : Host.Outcome State Fault Refusal := .next (s.setI (zextAddr nnn))

/-- FX1E ADD I: `I <- (I + V[X]) mod 65536`, VF not written (R151; log 9). -/
def execAddIVx (x : RegIdx) (s : State) : Host.Outcome State Fault Refusal :=
  .next (s.setI (indexPlus s.i (s.reg x)))

/-- FX29 LD F: `I <- 0x050 + 5 * V[X]` (R152; log 12). -/
def execLdFVx (x : RegIdx) (s : State) : Host.Outcome State Fault Refusal := .next (s.setI (glyphAddr (s.reg x)))

/-- FX33 LD B: the decimal digits of VX to `MEM[I], MEM[I+1], MEM[I+2]` (R153). -/
def execLdBVx (x : RegIdx) (s : State) : Host.Outcome State Fault Refusal :=
  .next (s.guardRange s.i.toNat 3 (s.setMem (s.mem.storeBytes s.i.toNat (bcdDigits (s.reg x)))))

/-- FX55 LD [I]: `V[0..X]` to `MEM[I .. I+X]` (R154). -/
def execStV0Vx (x : RegIdx) (s : State) : Host.Outcome State Fault Refusal :=
  .next (s.guardRange s.i.toNat (x.val + 1) (s.setMem (s.mem.storeBytes s.i.toNat (s.regsUpTo x))))

/-- FX65 LD Vx, [I]: `MEM[I .. I+X]` to `V[0..X]` (R155). -/
def execLdV0Vx (x : RegIdx) (s : State) : Host.Outcome State Fault Refusal :=
  .next (s.guardRange s.i.toNat (x.val + 1) (s.setRegs (s.loadedRegs x s.i.toNat)))

end Sys2Proof.Machine
end

