-- ==== Sys2Proof/Machine/KeypadTimers.lean ====
section
/-! DEFINITION. The meanings of the keypad and timer instructions (45_keypad_and_timers.md R180 to R185). -/

namespace Sys2Proof.Machine

/-- EX9E SKP: skip if `KEY[VX mod 16]` is pressed (R180; log 13). -/
def execSkpVx (x : RegIdx) (s : State) : Host.Outcome State Fault Refusal := .next (s.skipIf (s.keyPressed x))

/-- EXA1 SKNP: skip if `KEY[VX mod 16]` is not pressed (R181; log 13). -/
def execSknpVx (x : RegIdx) (s : State) : Host.Outcome State Fault Refusal := .next (s.skipIf (!s.keyPressed x))

/-- FX0A LD Vx, K at a given KEY_PICK: back to P while no key is pressed, else a pressed key's number to VX (R182, R7;
log 23). -/
def execLdVxKPick (pick : Keypad → KeyIdx) (x : RegIdx) (s : State) : Host.Outcome State Fault Refusal :=
  match pickKey s.key pick with
  | none => .next (s.setPc (s.pc - 2#16))
  | some k => .next (s.setReg x (keyByte k))

/-- FX0A LD Vx, K at the default KEY_PICK, the smallest pressed key (R182, R7; log 4). -/
def execLdVxK (x : RegIdx) (s : State) : Host.Outcome State Fault Refusal := execLdVxKPick Config.keyPick x s

/-- FX07 LD Vx, DT: `V[X] <- DT` (R183). -/
def execLdVxDt (x : RegIdx) (s : State) : Host.Outcome State Fault Refusal := .next (s.setReg x s.dt)

/-- FX15 LD DT, Vx: `DT <- V[X]` (R184). -/
def execLdDtVx (x : RegIdx) (s : State) : Host.Outcome State Fault Refusal := .next (s.setDt (s.reg x))

/-- FX18 LD ST, Vx: `ST <- V[X]` (R185). -/
def execLdStVx (x : RegIdx) (s : State) : Host.Outcome State Fault Refusal := .next (s.setSt (s.reg x))

end Sys2Proof.Machine
end

