-- ==== Sys2Proof/Machine/LoadAlu.lean ====
section
/-! DEFINITION. The meanings of the load, arithmetic, logic, shift and random instructions
(42_load_and_alu.md R128 to R141). -/

namespace Sys2Proof.Machine

/-- 6XNN LD: `V[X] <- NN` (R130). -/
def execLdVxNn (x : RegIdx) (nn : Byte) (s : State) : Host.Outcome State Fault Refusal := .next (s.setReg x nn)

/-- 7XNN ADD: `V[X] <- (V[X] + NN) mod 256`, no flag (R131). -/
def execAddVxNn (x : RegIdx) (nn : Byte) (s : State) : Host.Outcome State Fault Refusal :=
  .next (s.setReg x (s.reg x + nn))

/-- 8XY0 LD: `V[X] <- V[Y]` (R132). -/
def execLdVxVy (x y : RegIdx) (s : State) : Host.Outcome State Fault Refusal := .next (s.setReg x (s.reg y))

/-- 8XY1 OR: `V[X] <- V[X] | V[Y]` (R133). -/
def execOrVxVy (x y : RegIdx) (s : State) : Host.Outcome State Fault Refusal :=
  .next (s.setReg x (s.reg x ||| s.reg y))

/-- 8XY2 AND: `V[X] <- V[X] & V[Y]` (R134). -/
def execAndVxVy (x y : RegIdx) (s : State) : Host.Outcome State Fault Refusal :=
  .next (s.setReg x (s.reg x &&& s.reg y))

/-- 8XY3 XOR: `V[X] <- V[X] ^ V[Y]` (R135). -/
def execXorVxVy (x y : RegIdx) (s : State) : Host.Outcome State Fault Refusal :=
  .next (s.setReg x (s.reg x ^^^ s.reg y))

/-- 8XY4 ADD: the sum modulo 256 to VX, then the carry to VF (R136, R129). -/
def execAddVxVy (x y : RegIdx) (s : State) : Host.Outcome State Fault Refusal :=
  .next (s.setResultFlag x (s.reg x + s.reg y) (carryFlag (s.reg x) (s.reg y)))

/-- 8XY5 SUB: `VX - VY` modulo 256 to VX, then `VX > VY` to VF (R137, R129). -/
def execSubVxVy (x y : RegIdx) (s : State) : Host.Outcome State Fault Refusal :=
  .next (s.setResultFlag x (s.reg x - s.reg y) (greaterFlag (s.reg x) (s.reg y)))

/-- 8XY6 SHR: VX shifted right by one, Y ignored, then the old bit 0 to VF (R138, R129; log 14). -/
def execShrVx (x _y : RegIdx) (s : State) : Host.Outcome State Fault Refusal :=
  .next (s.setResultFlag x (s.reg x >>> 1) (lowBit (s.reg x)))

/-- 8XY7 SUBN: `VY - VX` modulo 256 to VX, then `VY > VX` to VF (R139, R129). -/
def execSubnVxVy (x y : RegIdx) (s : State) : Host.Outcome State Fault Refusal :=
  .next (s.setResultFlag x (s.reg y - s.reg x) (greaterFlag (s.reg y) (s.reg x)))

/-- 8XYE SHL: VX shifted left by one, Y ignored, then the old bit 7 to VF (R140, R129; log 14). -/
def execShlVx (x _y : RegIdx) (s : State) : Host.Outcome State Fault Refusal :=
  .next (s.setResultFlag x (s.reg x <<< 1) (highBit (s.reg x)))

/-- CXNN RND with a given RAND: `V[X] <- RAND & NN`, one draw consumed (R141, R37, R92). -/
def execRndByte (rand : Byte) (x : RegIdx) (nn : Byte) (s : State) : Host.Outcome State Fault Refusal :=
  .next (s.countDraw.setReg x (rand &&& nn))

/-- CXNN RND with the next free byte as RAND (R141, R37; log 5). -/
def execRndVxNn (x : RegIdx) (nn : Byte) (s : State) : Host.Outcome State Fault Refusal :=
  execRndByte s.randByte x nn s

end Sys2Proof.Machine
end

