-- ==== Sys2Proof/Machine/Step.lean ====
section
/-! DEFINITION. One fetch-decode-execute cycle (40_cycle_and_host_ops.md R92 to R96) and the placing of a word where
it is fetched. -/

namespace Sys2Proof.Machine

/-- The operation `step` (R92) at the default parameters of R7: one cycle around `exec`. The report of the step is
`stepReport` (log 26); the step at any parameters is `stepWith`. -/
def step (s : State) : Host.Outcome State Fault Refusal := fetchExecute exec s

/-- The state with the instruction whose bits are `w` (bit 0 the least significant bit of the 16-bit word, bits above
`nbits` zero) stored at PC and PC + 1, high byte first, where the next step fetches it (log 22). -/
def State.withFetchWord (s : State) (nbits w : Nat) : State :=
  s.placeWord (BitVec.ofNat 16 (w % 2 ^ nbits))

end Sys2Proof.Machine
end

