-- ==== Sys2Proof/Machine/Parametric.lean ====
section
/-! DEFINITION. The machine at any value of the parameters of R7 (00_scope.md; log 32), and the spec's step(RAND) over
exactly the state of R20 (40_cycle_and_host_ops.md R92). `exec` and `step` are the case of the default parameters
(`execWith_default`, `stepWith_default` in Laws/Step.lean). -/

namespace Sys2Proof.Machine

/-- The execute part at any parameters: three rules read one, CALL the STACK_DEPTH (R113), FX0A the KEY_PICK (R182),
CXNN the RAND (R141); every other instruction is the arm of `exec`. -/
def execWith (p : Params) (i : Instr) (s : State) : Host.Outcome State Fault Refusal :=
  match i with
  | .call nnn => execCallDepth p.stackDepth nnn s
  | .ldVxK x => execLdVxKPick p.keyPick x s
  | .rndVxNn x nn => execRndByte (p.rand s.draws) x nn s
  | i => exec i s

/-- One fetch-decode-execute cycle at any parameters (R92). -/
def stepWith (p : Params) (s : State) : Host.Outcome State Fault Refusal := fetchExecute (execWith p) s

/-- The state after reset at any parameters: the table of R38 with FONT at 0x050..0x09F (R31, R38; logs 3, 32). -/
def resetWith (p : Params) : State := State.reset.setMem (State.reset.mem.storeBytes 0x050 p.font.toList)

/-- An outcome over the state of R20. -/
def archOutcome : Host.Outcome State Fault Refusal → Host.Outcome ArchState Fault Refusal
  | .next t => .next t.toArchState
  | .fault r => .fault r
  | .refused r => .refused r

/-- `step(RAND)` of R92, on exactly the components of R20, with the random byte as an input of the operation (R37). -/
def ArchState.step (p : Params) (rand : Byte) (a : ArchState) : Host.Outcome ArchState Fault Refusal :=
  archOutcome (stepWith { p with rand := fun _ => rand } { toArchState := a, draws := 0 })

end Sys2Proof.Machine
end

