-- ==== Sys2Proof/Machine/HostOps.lean ====
section
/-! DEFINITION. The five atomic operations by which the host drives the hardware, their results, and the read-only
outputs (40_cycle_and_host_ops.md R90 to R101; 10_state.md R39; 20_memory.md R61). An operation that a parameter of R7
bears on takes `Params` as its last argument, with the defaults of R7 (log 32). -/

namespace Sys2Proof.Machine

/-! ## The report of a step -/

/-- The outcome of the step operation (R92): `Ok`, `DecodeError(op)` or `Fatal(cause, info)`. -/
inductive StepReport where
  | ok
  | decodeError (op : Word)
  | fatal (record : Option FaultRecord)
deriving DecidableEq, Repr

/-- What the outcome of `step` says when the fetched word was an instruction or was not fetched: a fatal condition of
this step has set HALTED (R92 `on fatal`, R96). -/
def reportOf : Host.Outcome State Fault Refusal → StepReport
  | .next t => if t.halted then .fatal t.fault else .ok
  | .fault (.halted record) => .fatal record
  | .refused _ => .ok

/-- The report the step operation delivers in state `s` (R92, R95, R192; log 26). -/
def stepReport (s : State) (p : Params := {}) : StepReport :=
  match s.fetch with
  | some op => if !s.halted && (decodeWord op).isNone then .decodeError op else reportOf (stepWith p s)
  | none => reportOf (stepWith p s)

/-! ## Reset, load, tick, key input -/

/-- `reset()`: every component of the spec at its value of R38 (R101). The model's own counter of random draws goes on,
so that no draw repeats an earlier one (log 5). -/
def State.resetOp (s : State) (p : Params := {}) : State := { resetWith p with draws := s.draws }

/-- The result of the load operation (R90, R191). -/
inductive LoadResult where
  | ok
  | romTooLarge
deriving DecidableEq, Repr

/-- `load(bytes)`: more than 3584 bytes are rejected with no change; otherwise they are copied to memory from 0x200 and
nothing else changes, in any state (R90, R91, R66; log 20). -/
def State.load (s : State) (bytes : List Byte) : State × LoadResult :=
  if bytes.length > 3584 then (s, .romTooLarge) else (s.setMem (s.mem.storeBytes 0x200 bytes), .ok)

/-- A timer's value after a tick: one less, never below 0 (R34, R97). -/
def tickTimer (b : Byte) : Byte := if b.toNat > 0 then b - 1#8 else b

/-- `tick()`: both timers, each on its own, also when halted (R97; log 24). -/
def State.tick (s : State) : State := (s.setDt (tickTimer s.dt)).setSt (tickTimer s.st)

/-- `set_key(k, pressed)`: `KEY[k] <- pressed` (R98). -/
def State.setKey (s : State) (k : KeyIdx) (pressed : Bool) : State := s.setKeys (s.key.set k pressed)

/-! ## All operations -/

/-- The operations of the host (R61, R100, R101). -/
inductive HostOp where
  | reset
  | load (bytes : List Byte)
  | step
  | tick
  | setKey (k : KeyIdx) (pressed : Bool)
deriving DecidableEq, Repr

/-- What an operation returns to the host (R92, R90; reset, tick and key input have no result). -/
inductive OpResult where
  | done
  | loaded (result : LoadResult)
  | stepped (report : StepReport)
deriving DecidableEq, Repr

/-- The state after a step operation: the next state, and the same state where `step` stops (R92, R96). -/
def State.afterStep (s : State) (p : Params := {}) : State :=
  match stepWith p s with
  | .next t => t
  | .fault _ => s
  | .refused _ => s

/-- One atomic operation: the state it leaves and its result (R61, R92, R97, R98, R101). -/
def perform (op : HostOp) (s : State) (p : Params := {}) : State × OpResult :=
  match op with
  | .reset => (s.resetOp p, .done)
  | .load bytes => ((s.load bytes).1, .loaded (s.load bytes).2)
  | .step => (s.afterStep p, .stepped (stepReport s p))
  | .tick => (s.tick, .done)
  | .setKey k pressed => (s.setKey k pressed, .done)

/-- A whole schedule of operations, one after the other; any schedule is possible (R61, R204; log 21). -/
def performAll (ops : List HostOp) (s : State) (p : Params := {}) : State :=
  ops.foldl (fun s op => (perform op s p).1) s

/-! ## Outputs -/

/-- `framebuffer()`: the whole grid, read-only (R39, R99). -/
def State.framebuffer (s : State) : Framebuffer := s.fb

/-- `is_sound_active()`: ST > 0 (R34, R39, R99). -/
def State.soundActive (s : State) : Bool := decide (s.st.toNat > 0)

/-- The current sound timer value, read-only (R39, R99). -/
def State.soundTimer (s : State) : Byte := s.st

/-- The numeric code of a fatal cause (R197). -/
def FatalCause.code : FatalCause → Nat
  | .stackUnderflow => 3
  | .stackOverflow => 4
  | .outOfBoundsAccess => 5

/-- The pair (code, information word) the host reads from `FAULT`, (0, 0) when it is none (R197). -/
def State.faultCode (s : State) : Nat × Word :=
  match s.fault with
  | none => (0, 0x0000#16)
  | some r => (r.cause.code, r.info)

end Sys2Proof.Machine
end

