-- ==== Sys2Proof/Safety.lean ====
section
/-! DEFINITION. What claims are stated in: safe and finished states, the invariants of the machine, the frame of an
instruction, and the sprite as a set of pixels. -/

namespace Sys2Proof.Machine

/-! ## Outcomes -/

/-- The next state of an outcome, if it answers one. -/
def nextState? : Host.Outcome State Fault Refusal → Option State
  | .next t => some t
  | .fault _ => none
  | .refused _ => none

/-- An outcome with its next state changed by `f`. -/
def mapNext (f : State → State) : Host.Outcome State Fault Refusal → Host.Outcome State Fault Refusal
  | .next t => .next (f t)
  | .fault r => .fault r
  | .refused r => .refused r

/-- The execute parts of a list of instructions, one after the other, stopping where one answers no state. -/
def execAll (p : Params) : List Instr → State → Host.Outcome State Fault Refusal
  | [], s => .next s
  | i :: is, s =>
    match execWith p i s with
    | .next t => execAll p is t
    | .fault r => .fault r
    | .refused r => .refused r

/-! ## Safe runs -/

/-- A running machine: no fatal condition has occurred since reset (R35, R196). -/
abbrev State.Running (s : State) : Prop := s.halted = false

/-- "The program has finished" (R227, decision D24): running, and the word at PC is the jump to PC itself. -/
abbrev State.Finished (s : State) : Prop := s.Running ∧ s.fetch = some (0x1000#16 ||| s.pc)

/-- The conditions of a schedule that halts nowhere: every state on the way is running. -/
def SafeRun (p : Params) : List HostOp → State → Prop
  | [], s => s.Running
  | op :: ops, s => s.Running ∧ SafeRun p ops (perform op s p).1

/-! ## Invariants -/

/-- What holds in every reachable state: the stack is at most STACK_DEPTH deep (R25) and its entries at most 0x1000
(R110), PC is at most 0x10FE (R30), memory is canonical (log 7), and FAULT is recorded exactly when HALTED is set
(R35). -/
abbrev State.Inv (s : State) (p : Params := {}) : Prop :=
  s.stack.length ≤ p.stackDepth ∧ (∀ w ∈ s.stack, w.toNat ≤ 0x1000) ∧ s.pc.toNat ≤ 0x10FE ∧
    s.mem.wf = true ∧ s.halted = s.fault.isSome

/-- What FAULT says about the state that holds it (R193, R194, R195, R199): underflow leaves an empty stack and the
word 0; overflow a full stack and the word PC; an access out of bounds either the unchanged PC of a failed fetch, or an
address of at least 0x1000 by an instruction whose advanced PC is at most 0x1000. -/
def State.FaultDescribes (s : State) (p : Params := {}) : Prop :=
  match s.fault with
  | none => True
  | some ⟨.stackUnderflow, info⟩ => s.stack = [] ∧ info = 0#16
  | some ⟨.stackOverflow, info⟩ => s.stack.length = p.stackDepth ∧ info = s.pc
  | some ⟨.outOfBoundsAccess, info⟩ =>
    (info = s.pc ∧ 0xFFE < info.toNat) ∨ (0x1000 ≤ info.toNat ∧ s.pc.toNat ≤ 0x1000)

/-! ## Stored bytes -/

/-- What an address reads after the n bytes `f 0`, …, `f (n - 1)` are stored from `base` on: the stored byte inside
`base .. base + n - 1`, the old byte outside (R153, R154). -/
def overwritten (m : Memory) (base n : Nat) (f : Nat → Byte) (a : Nat) : Byte :=
  if base ≤ a ∧ a < base + n then f (a - base) else m.byteAt a

/-! ## Frames -/

/-- The components an instruction may write; the registers by number. `halt` stands for HALTED and FAULT. -/
structure Touch where
  regs : List RegIdx := []
  i : Bool := false
  pc : Bool := false
  stack : Bool := false
  dt : Bool := false
  st : Bool := false
  key : Bool := false
  fb : Bool := false
  mem : Bool := false
  halt : Bool := false
  draws : Bool := false
deriving DecidableEq, Repr

/-- Everything but the touched components is the same in `s` and `t` (decision D12: an instruction changes only what its
rule names; log 25). Memory is compared through the read of each address. -/
structure Frame (w : Touch) (s t : State) : Prop where
  regs : ∀ r, r ∉ w.regs → t.reg r = s.reg r
  i : w.i = false → t.i = s.i
  pc : w.pc = false → t.pc = s.pc
  stack : w.stack = false → t.stack = s.stack
  dt : w.dt = false → t.dt = s.dt
  st : w.st = false → t.st = s.st
  key : w.key = false → t.key = s.key
  fb : w.fb = false → t.fb = s.fb
  mem : w.mem = false → ∀ a, t.mem.read a = s.mem.read a
  halted : w.halt = false → t.halted = s.halted
  fault : w.halt = false → t.fault = s.fault
  draws : w.draws = false → t.draws = s.draws

/-- No condition was raised: HALTED and FAULT are as before ("Exceptions: none"). -/
abbrev NoException (s t : State) : Prop := t.halted = s.halted ∧ t.fault = s.fault

/-- The fatal condition was taken and left no other effect: HALTED and FAULT written, PC included in what is unchanged
(R196, R198, R199). -/
abbrev TookFatal (cause : FatalCause) (info : Word) (s t : State) : Prop :=
  t.halted = true ∧ t.fault = some ⟨cause, info⟩ ∧ Frame { halt := true } s t

/-! ## The sprite of DXYN as a set of pixels -/

/-- Whether a set sprite bit falls on the grid's pixel (row, col) when DXYN draws n rows with VX and VY in state `s`: the
closed form of the pseudocode of R171. -/
def spriteCovers (s : State) (x y : RegIdx) (n : Fin 16) (row col : Nat) : Bool :=
  decide (row ≤ 31 ∧ col ≤ 63) &&
    decide ((s.reg y).toNat % 32 ≤ row ∧ row < (s.reg y).toNat % 32 + n.val) &&
    decide ((s.reg x).toNat % 64 ≤ col ∧ col < (s.reg x).toNat % 64 + 8) &&
    (s.mem.byteAt (s.i.toNat + (row - (s.reg y).toNat % 32))).getLsbD (7 - (col - (s.reg x).toNat % 64))

end Sys2Proof.Machine
end

