-- ==== Sys2Proof/Certificates/Slice0/Obligations.lean ====
section
/-! DEFINITION. The statements for the provers, from the numbered rules of spec/. A clause that rests on a decision the
spec marks as its own (D<n> of 92_eei_decisions.md) or on a choice of this model is said so in the docstring, with its
log entry. In every statement about `exec`, `s.pc` is the already advanced program counter P + 2 (R93). A statement that
a parameter of R7 bears on holds for every `p : Params`; `exec`, `step` and an omitted `p` are the default parameters
(`StepRunsTheDecodedInstruction` says so; log 32). -/

open Sys2Proof Sys2Proof.Machine

/-! ## Reset and memory -/

/-- The reset operation gives every component the value of the table of R38, from any state, with FONT at 0x050..0x09F for
every FONT. PC and the font range come from the source; the other values, and the default FONT of `State.reset`, are the
spec's decisions D2, D3, D13 (logs 3, 6). The model's own counter of random draws is no component of the spec and is kept
(log 5). -/
def Obligations.ResetGivesTheTableOfResetValues : Prop :=
  resetWith {} = State.reset ∧
  (∀ p s, perform .reset s p = ({ resetWith p with draws := s.draws }, .done)) ∧
  ∀ p : Params,
    (resetWith p).pc = 0x0200#16 ∧ (∀ r, (resetWith p).reg r = 0x00#8) ∧ (resetWith p).i = 0x0000#16 ∧
    (resetWith p).stack = [] ∧ (resetWith p).dt = 0x00#8 ∧ (resetWith p).st = 0x00#8 ∧
    (∀ k : KeyIdx, (resetWith p).key[k] = false) ∧ (∀ y x, pixel (resetWith p).fb y x = false) ∧
    (resetWith p).halted = false ∧ (resetWith p).fault = none ∧
    (∀ a, 0x050 ≤ a → a ≤ 0x09F → (resetWith p).mem.read a = p.font[a - 0x050]?) ∧
    (∀ a, a ≤ 0xFFF → (a < 0x050 ∨ 0x09F < a) → (resetWith p).mem.read a = some 0x00#8)

/-- Two canonical memories that read alike at every address are the same data: the model's representation (log 7) holds
exactly the 4096 bytes the spec gives the machine and nothing else. -/
def Obligations.CanonicalMemoriesThatReadAlikeAreEqual : Prop :=
  ∀ m m' : Memory, m.wf = true → m'.wf = true → (∀ a, m.read a = m'.read a) → m = m'

/-! ## Encoding -/

/-- Decode and encode agree: the two bytes of every well-formed instruction, every operand at every value the encoding
admits, decode to that instruction and leave what follows them (R70 to R73). -/
def Obligations.DecodeOfEncodedBytesIsTheInstruction : Prop :=
  ∀ (i : Instr) (rest : List Byte), i.wellFormed = true → decode (encodeBytes i ++ rest) = .ok (i, rest)

/-- Each word has one meaning: a word that decodes to an instruction is the word of that instruction, which is
well-formed, so no bit of a valid word is dropped (R72, R73, R80). -/
def Obligations.EncodeOfDecodedWordIsTheWord : Prop :=
  ∀ (w : Word) (i : Instr), decodeWord w = some i → i.wellFormed = true ∧ encode i = w

/-- R77 and R78: groups E and F dispatch on the low byte, for every X; the other values of NN are DecodeErrors. -/
def Obligations.GroupsEAndFDispatchOnTheLowByte : Prop :=
  ∀ (x : RegIdx) (nn : Byte),
    decodeWord (formatXNN 0xE x nn) =
        (if nn = 0x9E#8 then some (.skpVx x) else if nn = 0xA1#8 then some (.sknpVx x) else none) ∧
    decodeWord (formatXNN 0xF x nn) =
        (if nn = 0x07#8 then some (.ldVxDt x) else if nn = 0x0A#8 then some (.ldVxK x)
         else if nn = 0x15#8 then some (.ldDtVx x) else if nn = 0x18#8 then some (.ldStVx x)
         else if nn = 0x1E#8 then some (.addIVx x) else if nn = 0x29#8 then some (.ldFVx x)
         else if nn = 0x33#8 then some (.ldBVx x) else if nn = 0x55#8 then some (.stV0Vx x)
         else if nn = 0x65#8 then some (.ldV0Vx x) else none)

/-- The DecodeError words are exactly the five sets of R79 (derived there; decisions D15, D30, log 17). -/
def Obligations.DecodeErrorWordsAreExactlyTheFiveSets : Prop :=
  ∀ w : Word, decodeWord w = none ↔
    (slice w 15 12 = 0x5 ∧ slice w 3 0 ≠ 0x0) ∨
    (slice w 15 12 = 0x8 ∧ slice w 3 0 ∈ [0x8, 0x9, 0xA, 0xB, 0xC, 0xD, 0xF]) ∨
    (slice w 15 12 = 0x9 ∧ slice w 3 0 ≠ 0x0) ∨
    (slice w 15 12 = 0xE ∧ slice w 7 0 ∉ [0x9E, 0xA1]) ∨
    (slice w 15 12 = 0xF ∧ slice w 7 0 ∉ [0x07, 0x0A, 0x15, 0x18, 0x1E, 0x29, 0x33, 0x55, 0x65])

/-- The decoder and the machine-readable table agree on every word: the instruction is that of the first row whose mask
and value the word satisfies, and a word that selects no row is a DecodeError (R83, derived there from R73). -/
def Obligations.EveryWordDecodesAsItsTableRow : Prop :=
  ∀ w : Word, (decodeWord w).map Instr.mnemonic = tableMnemonic w

/-- Words written out from the spec's examples decode to the instructions they stand for (a sanity statement). -/
def Obligations.WordsOfTheSpecDecode : Prop :=
  decodeWord 0x6A2F = some (.ldVxNn 0xA 0x2F#8) ∧ decodeWord 0x8124 = some (.addVxVy 1 2) ∧
  decodeWord 0xD123 = some (.drwVxVyN 1 2 3) ∧ decodeWord 0xF233 = some (.ldBVx 2) ∧
  decodeWord 0x2300 = some (.call 0x300#12) ∧ decodeWord 0xE59E = some (.skpVx 5) ∧
  decodeWord 0x00EE = some .ret ∧ decodeWord 0x01E0 = some (.sys 0x1E0#12) ∧ decodeWord 0x5121 = none

/-! ## The step -/

/-- A step of a running machine runs the decoded instruction: the two bytes at PC and PC + 1, the first one high, are
decoded, PC is advanced by 2 before the instruction, and the step is the execute part of that instruction (R92 to R94);
so at every value of the parameters, of which `exec` and `step` are the defaults (R7; log 32). -/
def Obligations.StepRunsTheDecodedInstruction : Prop :=
  (∀ (s : State) (high low : Byte) (i : Instr), s.Running →
    s.mem.read s.pc.toNat = some high → s.mem.read (s.pc.toNat + 1) = some low →
    decode [high, low] = .ok (i, []) →
    (s.pc + 2#16).toNat = s.pc.toNat + 2 ∧ step s = exec i (s.setPc (s.pc + 2#16)) ∧
      ∀ p, stepWith p s = execWith p i (s.setPc (s.pc + 2#16))) ∧
  execWith {} = exec ∧ stepWith {} = step

/-- R95: a fetched word that is no instruction advances PC by 2, changes nothing else, and is reported. -/
def Obligations.DecodeErrorWordOnlyAdvancesPc : Prop :=
  ∀ (s : State) (high low : Byte), s.Running →
    s.mem.read s.pc.toNat = some high → s.mem.read (s.pc.toNat + 1) = some low →
    decodeWord (wordOfBytes high low) = none →
    step s = .next (s.setPc (s.pc + 2#16)) ∧
    ∀ p, perform .step s p = (s.setPc (s.pc + 2#16), .stepped (.decodeError (wordOfBytes high low)))

/-- A fetch with PC above 0xFFE takes OutOfBoundsAccess(PC) and leaves PC and everything else as it was (R57, R195, R199;
decisions D13, D14, logs 15, 16). That the raising step answers a next state is this model's choice (log 1). -/
def Obligations.FetchBeyondMemoryHalts : Prop :=
  ∀ s : State, s.Running → 0xFFE < s.pc.toNat →
    ∃ t, step s = .next t ∧ TookFatal .outOfBoundsAccess s.pc s t ∧
      ∀ p, stepWith p s = .next t ∧ stepReport s p = .fatal (some ⟨.outOfBoundsAccess, s.pc⟩)

/-- A step of a halted machine surfaces the recorded fault, and the step operation leaves the whole state as it was (R92,
R96; decision D25). That `step` answers a fault there is this model's choice (log 1). -/
def Obligations.HaltedStepChangesNothing : Prop :=
  ∀ s : State, s.halted = true →
    step s = .fault (.halted s.fault) ∧ ∀ p, perform .step s p = (s, .stepped (.fatal s.fault))

/-- Nothing is refused and nothing stops but a halted machine: every instruction answers a next state in every state, and
so does every step of a running machine. R96 says that a step is atomic and always terminates. That a raised fatal
condition answers a NEXT state is the model's choice (log 1, DESIGN CHOICE), and that `exec` does not read HALTED, so that
the clause about every state covers halted ones, is its choice too (log 31, DESIGN CHOICE). -/
def Obligations.RunningStepAlwaysAnswersANextState : Prop :=
  (∀ (i : Instr) (s : State), ∃ t, exec i s = .next t) ∧
  (∀ (p : Params) (i : Instr) (s : State), ∃ t, execWith p i s = .next t) ∧
  (∀ s : State, s.Running → ∃ t, step s = .next t) ∧
  (∀ (p : Params) (s : State), s.Running → ∃ t, stepWith p s = .next t) ∧
  (∀ (p : Params) (s : State) (r : Refusal), step s ≠ .refused r ∧ stepWith p s ≠ .refused r)

/-- The report of a step of a running machine: Fatal with the recorded condition when the step halted it; when it did not,
Ok if the word was an instruction and DecodeError of the word if it was none (R92, R95). That the halting step answers a
next state is this model's choice (log 1), and so is the report as a function beside `step` (log 26). -/
def Obligations.StepReportSaysWhetherTheStepHalted : Prop :=
  ∀ (p : Params) (s t : State), s.Running → stepWith p s = .next t →
    (t.halted = true → stepReport s p = .fatal t.fault) ∧
    (t.halted = false → ∀ op i, s.fetch = some op → decodeWord op = some i → stepReport s p = .ok) ∧
    (∀ op, s.fetch = some op → decodeWord op = none → t.halted = false ∧ stepReport s p = .decodeError op)

/-! ## Control flow -/

/-- Every word of group 0 but 0x00E0 and 0x00EE is SYS (decision D15, log 17), which changes nothing (R111). -/
def Obligations.SysChangesNothing : Prop :=
  ∀ (nnn : Addr) (s : State), nnn ≠ 0x0E0#12 → nnn ≠ 0x0EE#12 →
    decodeWord (formatNNN 0x0 nnn) = some (.sys nnn) ∧ exec (.sys nnn) s = .next s

/-- R112: JP sets PC to NNN, zero-extended. -/
def Obligations.JpSetsPc : Prop :=
  ∀ (nnn : Addr) (s : State),
    decodeWord (formatNNN 0x1 nnn) = some (.jp nnn) ∧
    ∃ t, exec (.jp nnn) s = .next t ∧ t.pc.toNat = nnn.toNat ∧ t.reg 15 = s.reg 15 ∧ NoException s t

/-- R115 and R116: SE skips when VX = NN, SNE when VX ≠ NN; exactly one of the two; no register changes. -/
def Obligations.ImmediateSkipsAddTwoToPc : Prop :=
  ∀ (x : RegIdx) (nn : Byte) (s : State),
    decodeWord (formatXNN 0x3 x nn) = some (.seVxNn x nn) ∧
    decodeWord (formatXNN 0x4 x nn) = some (.sneVxNn x nn) ∧
    (∃ t, exec (.seVxNn x nn) s = .next t ∧ NoException s t ∧ (∀ r, t.reg r = s.reg r) ∧
      t.pc = if (s.reg x).toNat = nn.toNat then s.pc + 2#16 else s.pc) ∧
    (∃ t, exec (.sneVxNn x nn) s = .next t ∧ NoException s t ∧ (∀ r, t.reg r = s.reg r) ∧
      t.pc = if (s.reg x).toNat = nn.toNat then s.pc else s.pc + 2#16)

/-- R117 and R118: SE skips when VX = VY, SNE when VX ≠ VY; no register changes. -/
def Obligations.RegisterSkipsAddTwoToPc : Prop :=
  ∀ (x y : RegIdx) (s : State),
    decodeWord (formatXYN 0x5 x y 0x0) = some (.seVxVy x y) ∧
    decodeWord (formatXYN 0x9 x y 0x0) = some (.sneVxVy x y) ∧
    (∃ t, exec (.seVxVy x y) s = .next t ∧ NoException s t ∧ (∀ r, t.reg r = s.reg r) ∧
      t.pc = if (s.reg x).toNat = (s.reg y).toNat then s.pc + 2#16 else s.pc) ∧
    (∃ t, exec (.sneVxVy x y) s = .next t ∧ NoException s t ∧ (∀ r, t.reg r = s.reg r) ∧
      t.pc = if (s.reg x).toNat = (s.reg y).toNat then s.pc else s.pc + 2#16)

/-- RET pops the top entry into PC; on an empty stack it takes StackUnderflow(0) and changes nothing else (R110, R193).
The frame is the spec's decision D12 (log 25), the next state of the fatal case this model's choice (log 1). -/
def Obligations.RetPopsTheStackOrUnderflows : Prop :=
  (∀ (s : State) (w : Word) (rest : List Word), s.stack = w :: rest →
    ∃ t, exec .ret s = .next t ∧ t.pc = w ∧ t.stack = rest ∧ Frame { pc := true, stack := true } s t) ∧
  (∀ s : State, s.stack = [] → ∃ t, exec .ret s = .next t ∧ TookFatal .stackUnderflow 0x0000#16 s t)

/-- CALL pushes the advanced PC and jumps; on a full stack it takes StackOverflow(PC) and changes nothing else (R113,
R194); so for every STACK_DEPTH, 16 being the default (decisions D1, D12, logs 2, 25; the next state of the fatal case is
this model's choice, log 1). -/
def Obligations.CallPushesTheReturnAddressOrOverflows : Prop :=
  (∀ (s : State) (nnn : Addr), s.stack.length < Config.stackDepth →
    ∃ t, exec (.call nnn) s = .next t ∧ t.pc.toNat = nnn.toNat ∧ t.stack = s.pc :: s.stack ∧
      Frame { pc := true, stack := true } s t) ∧
  (∀ (s : State) (nnn : Addr), s.stack.length = Config.stackDepth →
    ∃ t, exec (.call nnn) s = .next t ∧ TookFatal .stackOverflow s.pc s t) ∧
  (∀ (p : Params) (s : State) (nnn : Addr), s.stack.length < p.stackDepth →
    ∃ t, execWith p (.call nnn) s = .next t ∧ t.pc.toNat = nnn.toNat ∧ t.stack = s.pc :: s.stack ∧
      Frame { pc := true, stack := true } s t) ∧
  (∀ (p : Params) (s : State) (nnn : Addr), s.stack.length = p.stackDepth →
    ∃ t, execWith p (.call nnn) s = .next t ∧ TookFatal .stackOverflow s.pc s t)

/-- JP V0 sets PC to the exact sum V0 + NNN, unmasked (R114; decisions D12, D23, logs 19, 25). -/
def Obligations.JpV0SetsPcToTheExactSum : Prop :=
  ∀ (nnn : Addr) (s : State), ∃ t, exec (.jpV0Nnn nnn) s = .next t ∧
    t.pc.toNat = (s.reg 0).toNat + nnn.toNat ∧ Frame { pc := true } s t

/-- Nested calls return: for any targets, as many returns as calls undo the calls exactly, as long as the stack holds them
(R119; the bound is STACK_DEPTH by conflict C3, whatever it is, log 2). -/
def Obligations.NestedCallsReturn : Prop :=
  ∀ (p : Params) (targets : List Addr) (s : State), s.stack.length + targets.length ≤ p.stackDepth →
    execAll p (targets.map Instr.call ++ List.replicate targets.length Instr.ret) s = .next s

/-! ## Loads and arithmetic -/

/-- R130 and R131: LD puts NN into VX; ADD puts the sum modulo 256 into VX and does not touch VF. -/
def Obligations.ImmediateLoadAndAdd : Prop :=
  ∀ (x : RegIdx) (nn : Byte) (s : State),
    decodeWord (formatXNN 0x6 x nn) = some (.ldVxNn x nn) ∧
    decodeWord (formatXNN 0x7 x nn) = some (.addVxNn x nn) ∧
    (∃ t, exec (.ldVxNn x nn) s = .next t ∧ t.reg x = nn ∧ (x ≠ 15 → t.reg 15 = s.reg 15) ∧ NoException s t) ∧
    (∃ t, exec (.addVxNn x nn) s = .next t ∧ (t.reg x).toNat = ((s.reg x).toNat + nn.toNat) % 256 ∧
      (x ≠ 15 → t.reg 15 = s.reg 15) ∧ NoException s t)

/-- Assign, OR, AND and XOR of VX and VY, bit by bit, into VX; VF only as an ordinary destination (R132 to R135; the
sub-opcode numbers are the spec's decision D30, log 17). -/
def Obligations.RegisterMoveAndLogic : Prop :=
  ∀ (x y : RegIdx) (s : State),
    (decodeWord (formatXYN 0x8 x y 0x0) = some (.ldVxVy x y) ∧
      ∃ t, exec (.ldVxVy x y) s = .next t ∧ t.reg x = s.reg y ∧ (x ≠ 15 → t.reg 15 = s.reg 15) ∧ NoException s t) ∧
    (decodeWord (formatXYN 0x8 x y 0x1) = some (.orVxVy x y) ∧
      ∃ t, exec (.orVxVy x y) s = .next t ∧ (x ≠ 15 → t.reg 15 = s.reg 15) ∧ NoException s t ∧
        ∀ k, (t.reg x).getLsbD k = ((s.reg x).getLsbD k || (s.reg y).getLsbD k)) ∧
    (decodeWord (formatXYN 0x8 x y 0x2) = some (.andVxVy x y) ∧
      ∃ t, exec (.andVxVy x y) s = .next t ∧ (x ≠ 15 → t.reg 15 = s.reg 15) ∧ NoException s t ∧
        ∀ k, (t.reg x).getLsbD k = ((s.reg x).getLsbD k && (s.reg y).getLsbD k)) ∧
    (decodeWord (formatXYN 0x8 x y 0x3) = some (.xorVxVy x y) ∧
      ∃ t, exec (.xorVxVy x y) s = .next t ∧ (x ≠ 15 → t.reg 15 = s.reg 15) ∧ NoException s t ∧
        ∀ k, (t.reg x).getLsbD k = ((s.reg x).getLsbD k ^^ (s.reg y).getLsbD k))

/-- 8XY4: VX ends as the sum modulo 256 and VF as the carry (R136). That VF is written last, so that with X = 15 the carry
stays, is the spec's decision D10 (log 8); the frame its decision D12 (log 25). -/
def Obligations.AddWithCarry : Prop :=
  ∀ (x y : RegIdx) (s : State), ∃ t, exec (.addVxVy x y) s = .next t ∧
    (x ≠ 15 → (t.reg x).toNat = ((s.reg x).toNat + (s.reg y).toNat) % 256) ∧
    (t.reg 15).toNat = (if (s.reg x).toNat + (s.reg y).toNat > 255 then 1 else 0) ∧
    Frame { regs := [x, 15] } s t

/-- 8XY5 and 8XY7: VX ends as the difference modulo 256 and VF as the strict comparison of the old operands (R137, R139).
VF written last is decision D10 (log 8), the frame decision D12 (log 25). -/
def Obligations.SubtractWithStrictGreaterFlag : Prop :=
  ∀ (x y : RegIdx) (s : State),
    (∃ t, exec (.subVxVy x y) s = .next t ∧
      (x ≠ 15 → ((t.reg x).toNat : Int) = ((s.reg x).toNat - (s.reg y).toNat : Int) % 256) ∧
      (t.reg 15).toNat = (if (s.reg x).toNat > (s.reg y).toNat then 1 else 0) ∧ Frame { regs := [x, 15] } s t) ∧
    (∃ t, exec (.subnVxVy x y) s = .next t ∧
      (x ≠ 15 → ((t.reg x).toNat : Int) = ((s.reg y).toNat - (s.reg x).toNat : Int) % 256) ∧
      (t.reg 15).toNat = (if (s.reg y).toNat > (s.reg x).toNat then 1 else 0) ∧ Frame { regs := [x, 15] } s t)

/-- 8XY6 and 8XYE: VX is halved, or doubled modulo 256, and VF is the bit shifted out; Y is ignored (R138, R140; decisions
D10, D11, D12, logs 8, 14, 25). -/
def Obligations.ShiftsMoveVxByOneBit : Prop :=
  ∀ (x y : RegIdx) (s : State),
    (∃ t, exec (.shrVx x y) s = .next t ∧ (x ≠ 15 → (t.reg x).toNat = (s.reg x).toNat / 2) ∧
      (t.reg 15).toNat = (s.reg x).toNat % 2 ∧ Frame { regs := [x, 15] } s t) ∧
    (∃ t, exec (.shlVx x y) s = .next t ∧ (x ≠ 15 → (t.reg x).toNat = (s.reg x).toNat * 2 % 256) ∧
      (t.reg 15).toNat = (s.reg x).toNat / 128 ∧ Frame { regs := [x, 15] } s t)

/-- CXNN: VX is a random byte masked by NN, one draw is consumed, and every bit outside NN is 0 whatever the byte (R141,
R37; decisions D12, D17); for `exec` the byte is the free value `Config.rand` of the draw counter, for `execWith p` it is
any byte p names. RAND is all that the counter supplies: a step of any state is the spec's step(RAND) on the state of R20
with that byte as its input (R20, R92). The counter is this model's own (log 5); the statement holds for every value of
it and of the byte. -/
def Obligations.RndMasksAFreeByte : Prop :=
  (∀ (x : RegIdx) (nn : Byte) (s : State), ∃ t, exec (.rndVxNn x nn) s = .next t ∧
    t.reg x = Config.rand s.draws &&& nn ∧ (∀ k, nn.getLsbD k = false → (t.reg x).getLsbD k = false) ∧
    t.draws = s.draws + 1 ∧ Frame { regs := [x], draws := true } s t) ∧
  (∀ (p : Params) (x : RegIdx) (nn : Byte) (s : State), ∃ t, execWith p (.rndVxNn x nn) s = .next t ∧
    t.reg x = p.rand s.draws &&& nn ∧ t.draws = s.draws + 1 ∧ Frame { regs := [x], draws := true } s t) ∧
  (∀ (p : Params) (s : State), archOutcome (stepWith p s) = s.toArchState.step p (p.rand s.draws))

/-! ## Index register and memory -/

/-- R150: LD I sets I to NNN, zero-extended. -/
def Obligations.LdISetsTheIndex : Prop :=
  ∀ (nnn : Addr) (s : State),
    decodeWord (formatNNN 0xA nnn) = some (.ldINnn nnn) ∧
    ∃ t, exec (.ldINnn nnn) s = .next t ∧ t.i.toNat = nnn.toNat ∧ t.reg 15 = s.reg 15 ∧ NoException s t

/-- FX1E adds VX to I modulo 65536 and FX29 points I at the glyph of VX; neither touches VF or anything else (R151, R152;
decisions D4, D8, D12, logs 9, 12, 25). -/
def Obligations.AddToIndexAndGlyphAddress : Prop :=
  ∀ (x : RegIdx) (s : State),
    (∃ t, exec (.addIVx x) s = .next t ∧ t.i.toNat = (s.i.toNat + (s.reg x).toNat) % 65536 ∧
      Frame { i := true } s t) ∧
    (∃ t, exec (.ldFVx x) s = .next t ∧ t.i.toNat = 0x050 + 5 * (s.reg x).toNat ∧ Frame { i := true } s t)

/-- FX33 inside memory: the three decimal digits of VX at I, I + 1, I + 2, every other byte and everything else as before
(R153; decisions D12, D13, logs 15, 25). -/
def Obligations.BcdStoresTheDecimalDigits : Prop :=
  ∀ (x : RegIdx) (s : State), s.mem.wf = true → s.i.toNat + 2 ≤ 0xFFF →
    ∃ t, exec (.ldBVx x) s = .next t ∧
      t.mem.read s.i.toNat = some (BitVec.ofNat 8 ((s.reg x).toNat / 100)) ∧
      t.mem.read (s.i.toNat + 1) = some (BitVec.ofNat 8 ((s.reg x).toNat / 10 % 10)) ∧
      t.mem.read (s.i.toNat + 2) = some (BitVec.ofNat 8 ((s.reg x).toNat % 10)) ∧
      (∀ a, a < s.i.toNat ∨ s.i.toNat + 3 ≤ a → t.mem.read a = s.mem.read a) ∧ Frame { mem := true } s t

/-- FX55 inside memory: V0 to VX at I to I + X, every other byte and everything else, I included, as before (R154;
decisions D7, D12, D13, logs 11, 15, 25). -/
def Obligations.StoreRegistersFromIndex : Prop :=
  ∀ (x : RegIdx) (s : State), s.mem.wf = true → s.i.toNat + x.val ≤ 0xFFF →
    ∃ t, exec (.stV0Vx x) s = .next t ∧
      (∀ r : RegIdx, r ≤ x → t.mem.read (s.i.toNat + r.val) = some (s.reg r)) ∧
      (∀ a, a < s.i.toNat ∨ s.i.toNat + x.val + 1 ≤ a → t.mem.read a = s.mem.read a) ∧ Frame { mem := true } s t

/-- FX65 inside memory: V0 to VX from I to I + X, the registers above X and everything else, I included, as before (R155;
decisions D7, D12, D13, logs 11, 15, 25). -/
def Obligations.LoadRegistersFromIndex : Prop :=
  ∀ (x : RegIdx) (s : State), s.i.toNat + x.val ≤ 0xFFF →
    ∃ t, exec (.ldV0Vx x) s = .next t ∧
      (∀ r : RegIdx, r ≤ x → some (t.reg r) = s.mem.read (s.i.toNat + r.val)) ∧
      (∀ r : RegIdx, x < r → t.reg r = s.reg r) ∧ Frame { regs := List.finRange 16 } s t

/-- FX33, FX55, FX65 and DXYN whose range reaches beyond 0xFFF take OutOfBoundsAccess(max(I, 0x1000)) and leave no other
effect: no byte, register, pixel or flag changes (R156, R171, R195, R198; decisions D5, D13, D16, logs 10, 15, 18). That
the fatal condition is a next state is this model's choice (log 1). -/
def Obligations.OutOfRangeAccessHaltsWithoutEffect : Prop :=
  ∀ (x y : RegIdx) (n : Fin 16) (s : State),
    (0xFFF < s.i.toNat + 2 → ∃ t, exec (.ldBVx x) s = .next t ∧
      TookFatal .outOfBoundsAccess (BitVec.ofNat 16 (max s.i.toNat 0x1000)) s t) ∧
    (0xFFF < s.i.toNat + x.val → ∃ t, exec (.stV0Vx x) s = .next t ∧
      TookFatal .outOfBoundsAccess (BitVec.ofNat 16 (max s.i.toNat 0x1000)) s t) ∧
    (0xFFF < s.i.toNat + x.val → ∃ t, exec (.ldV0Vx x) s = .next t ∧
      TookFatal .outOfBoundsAccess (BitVec.ofNat 16 (max s.i.toNat 0x1000)) s t) ∧
    (0 < n.val → 0xFFF < s.i.toNat + n.val - 1 → ∃ t, exec (.drwVxVyN x y n) s = .next t ∧
      TookFatal .outOfBoundsAccess (BitVec.ofNat 16 (max s.i.toNat 0x1000)) s t)

/-- FX55 then FX65 with the same X and I restores V0 to VX whatever the registers hold in between (R154, R155; decisions
D7, D13). -/
def Obligations.StoreThenLoadRestoresTheRegisters : Prop :=
  ∀ (x : RegIdx) (s t u : State) (between : Vector Byte 16), s.mem.wf = true → s.i.toNat + x.val ≤ 0xFFF →
    exec (.stV0Vx x) s = .next t → exec (.ldV0Vx x) (t.setRegs between) = .next u →
    ∀ r : RegIdx, r ≤ x → u.reg r = s.reg r

/-- A store to the next instruction, or to one byte of it, is seen by the very next fetch: after any FX55 or FX33 inside
memory the fetched word is made of the stored bytes where the stored range meets PC or PC + 1, and of the old bytes where
it does not (R63, derived there from R57 and R60; the range inside memory: decisions D5, D13). -/
def Obligations.StoredCodeIsFetchedNext : Prop :=
  ∀ (x : RegIdx) (s t : State), s.mem.wf = true → s.pc.toNat ≤ 0xFFE →
    (s.i.toNat + x.val ≤ 0xFFF → exec (.stV0Vx x) s = .next t →
      t.pc = s.pc ∧ t.fetch = some (wordOfBytes
        (overwritten s.mem s.i.toNat (x.val + 1) (fun k => s.reg (Fin.ofNat 16 k)) s.pc.toNat)
        (overwritten s.mem s.i.toNat (x.val + 1) (fun k => s.reg (Fin.ofNat 16 k)) (s.pc.toNat + 1)))) ∧
    (s.i.toNat + 2 ≤ 0xFFF → exec (.ldBVx x) s = .next t →
      t.pc = s.pc ∧ t.fetch = some (wordOfBytes
        (overwritten s.mem s.i.toNat 3 (fun k => (bcdDigits (s.reg x)).getD k 0x00#8) s.pc.toNat)
        (overwritten s.mem s.i.toNat 3 (fun k => (bcdDigits (s.reg x)).getD k 0x00#8) (s.pc.toNat + 1))))

/-! ## Display -/

/-- R170: CLS turns every pixel off and does not write VF. -/
def Obligations.ClsTurnsEveryPixelOff : Prop :=
  decodeWord 0x00E0#16 = some .cls ∧
  ∀ s : State, ∃ t, exec .cls s = .next t ∧ (∀ y x, pixel t.framebuffer y x = false) ∧
    t.reg 15 = s.reg 15 ∧ NoException s t

/-- DXYN inside memory: each pixel of the grid is exclusive-ORed with the set sprite bit on it, clipped and not wrapped; VF
is 1 exactly when a set sprite bit fell on a pixel that was on, else 0; nothing else changes (R171; decisions D10, D12, D16,
logs 8, 18, 25). -/
def Obligations.DrwXorsTheSpriteAndReportsCollision : Prop :=
  ∀ (x y : RegIdx) (n : Fin 16) (s : State), (n.val = 0 ∨ s.i.toNat + n.val - 1 ≤ 0xFFF) →
    ∃ t, exec (.drwVxVyN x y n) s = .next t ∧
      (∀ row col, pixel t.fb row col = (pixel s.fb row col ^^ spriteCovers s x y n row col)) ∧
      (t.reg 15 = 0x00#8 ∨ t.reg 15 = 0x01#8) ∧
      (t.reg 15 = 0x01#8 ↔ ∃ row col, spriteCovers s x y n row col = true ∧ pixel s.fb row col = true) ∧
      Frame { regs := [15], fb := true } s t

/-- The same DXYN twice, with the same VX, VY, I and memory, restores the framebuffer; when the region was all off, the
first draw leaves VF = 0 and the second VF = 1 exactly when a set bit falls inside the grid (R172 (1), derived there from
R171; decisions D10, D16, logs 8, 18). -/
def Obligations.DrawingTwiceRestoresTheFramebuffer : Prop :=
  ∀ (x y : RegIdx) (n : Fin 16) (s t t' u : State), (n.val = 0 ∨ s.i.toNat + n.val - 1 ≤ 0xFFF) →
    exec (.drwVxVyN x y n) s = .next t →
    t'.fb = t.fb → t'.mem = s.mem → t'.i = s.i → t'.reg x = s.reg x → t'.reg y = s.reg y →
    exec (.drwVxVyN x y n) t' = .next u →
    u.fb = s.fb ∧
    ((∀ row col, spriteCovers s x y n row col = true → pixel s.fb row col = false) →
      t.reg 15 = 0x00#8 ∧ (u.reg 15 = 0x01#8 ↔ ∃ row col, spriteCovers s x y n row col = true))

/-! ## Keypad and timers -/

/-- EX9E and EXA1 test the key numbered by the low 4 bits of VX and skip when it is, or is not, pressed (R180, R181;
decisions D9, D12, logs 13, 25). -/
def Obligations.KeySkipsTestTheKeyOfVx : Prop :=
  ∀ (x : RegIdx) (s : State) (k : KeyIdx), k.val = (s.reg x).toNat % 16 →
    (∃ t, exec (.skpVx x) s = .next t ∧ t.pc = (if s.key[k] then s.pc + 2#16 else s.pc) ∧
      Frame { pc := true } s t) ∧
    (∃ t, exec (.sknpVx x) s = .next t ∧ t.pc = (if s.key[k] then s.pc else s.pc + 2#16) ∧
      Frame { pc := true } s t)

/-- FX0A with no key pressed: the step leaves the whole state exactly as it was and reports Ok (R182 corner case a, R210;
decision D6, log 23). -/
def Obligations.WaitingForAKeyChangesNothing : Prop :=
  ∀ (x : RegIdx) (s : State), s.Running → s.fetch = some (formatXNN 0xF x 0x0A#8) →
    (∀ k : KeyIdx, s.key[k] = false) →
      step s = .next s ∧ ∀ p, stepWith p s = .next s ∧ stepReport s p = .ok

/-- FX0A with a key pressed loads the number of some pressed key, which is that key when it is the only one (R182; decision
D6, log 23). Which of several it is, is KEY_PICK's answer, for every KEY_PICK; for `exec` it is the default of R7, the
smallest pressed key (decision D6, log 4). -/
def Obligations.WaitTakesAPressedKey : Prop :=
  ∀ (x : RegIdx) (s : State) (k : KeyIdx), s.key[k] = true →
    (∃ (t : State) (j : KeyIdx), exec (.ldVxK x) s = .next t ∧ s.key[j] = true ∧ (t.reg x).toNat = j.val ∧
      (∀ k' : KeyIdx, s.key[k'] = true → j ≤ k') ∧ Frame { regs := [x] } s t) ∧
    (∀ p : Params, ∃ (t : State) (j : KeyIdx), execWith p (.ldVxK x) s = .next t ∧ s.key[j] = true ∧
      (t.reg x).toNat = j.val ∧ (s.key[p.keyPick s.key] = true → j = p.keyPick s.key) ∧
      ((∀ k' : KeyIdx, s.key[k'] = true → k' = k) → j = k) ∧ Frame { regs := [x] } s t)

/-- R183 and R184: FX07 reads DT into VX, FX15 writes VX to DT. -/
def Obligations.DelayTimerTransfers : Prop :=
  ∀ (x : RegIdx) (s : State),
    decodeWord (formatXNN 0xF x 0x07#8) = some (.ldVxDt x) ∧
    decodeWord (formatXNN 0xF x 0x15#8) = some (.ldDtVx x) ∧
    (∃ t, exec (.ldVxDt x) s = .next t ∧ t.reg x = s.dt ∧ t.dt = s.dt ∧ (x ≠ 15 → t.reg 15 = s.reg 15) ∧
      NoException s t) ∧
    (∃ t, exec (.ldDtVx x) s = .next t ∧ t.dt = s.reg x ∧ t.reg 15 = s.reg 15 ∧ NoException s t)

/-- FX18 writes VX to ST; the sound output is then active until VX ticks have occurred (R185, R97). -/
def Obligations.SoundIsActiveForVxTicks : Prop :=
  ∀ (x : RegIdx) (s : State),
    decodeWord (formatXNN 0xF x 0x18#8) = some (.ldStVx x) ∧
    ∃ t, exec (.ldStVx x) s = .next t ∧ t.st = s.reg x ∧ t.reg 15 = s.reg 15 ∧ NoException s t ∧
      ∀ n, (performAll (List.replicate n .tick) t).soundActive = true ↔ n < (s.reg x).toNat

/-! ## Host operations -/

/-- A tick decrements each timer that is above 0 and changes nothing else (R97), whether or not the machine is halted
(decision D28, log 24). -/
def Obligations.TickDecrementsTheTimers : Prop :=
  ∀ s : State, (perform .tick s).2 = .done ∧
    (perform .tick s).1.dt.toNat = (if s.dt.toNat > 0 then s.dt.toNat - 1 else 0) ∧
    (perform .tick s).1.st.toNat = (if s.st.toNat > 0 then s.st.toNat - 1 else 0) ∧
    Frame { dt := true, st := true } s (perform .tick s).1

/-- n ticks bring a timer down by n, never below 0, and change nothing else (R97; its worked example, S9). -/
def Obligations.TicksCountDownToZero : Prop :=
  ∀ (n : Nat) (s : State),
    (performAll (List.replicate n .tick) s).dt.toNat = s.dt.toNat - n ∧
    (performAll (List.replicate n .tick) s).st.toNat = s.st.toNat - n ∧
    Frame { dt := true, st := true } s (performAll (List.replicate n .tick) s)

/-- R98: key input writes the one flag and changes nothing else. -/
def Obligations.SetKeyWritesOneFlag : Prop :=
  ∀ (s : State) (k : KeyIdx) (pressed : Bool), (perform (.setKey k pressed) s).2 = .done ∧
    (∀ j : KeyIdx, (perform (.setKey k pressed) s).1.key[j] = if j = k then pressed else s.key[j]) ∧
    Frame { key := true } s (perform (.setKey k pressed) s).1

/-- Load rejects more than 3584 bytes and changes nothing, and otherwise copies the bytes to 0x200 and changes nothing else
(R90), in any state (decision D22, log 20). The premise is the invariant of the model's memory (log 7). -/
def Obligations.LoadPlacesTheProgramOrRejectsIt : Prop :=
  ∀ (s : State) (bytes : List Byte), s.mem.wf = true →
    (3584 < bytes.length → perform (.load bytes) s = (s, .loaded .romTooLarge)) ∧
    (bytes.length ≤ 3584 → ∃ t, perform (.load bytes) s = (t, .loaded .ok) ∧
      (∀ k, k < bytes.length → t.mem.read (0x200 + k) = bytes[k]?) ∧
      (∀ a, a < 0x200 ∨ 0x200 + bytes.length ≤ a → t.mem.read a = s.mem.read a) ∧ Frame { mem := true } s t)

/-- HALTED and FAULT are sticky: no operation but reset clears or changes them, and reset clears both (R35, R96, R101, R202;
decisions D13, D25). -/
def Obligations.OnlyResetClearsHalted : Prop :=
  ∀ (p : Params) (op : HostOp) (s : State), s.halted = true →
    (op ≠ .reset → (perform op s p).1.halted = true ∧ (perform op s p).1.fault = s.fault) ∧
    (perform .reset s p).1.halted = false ∧ (perform .reset s p).1.fault = none

/-! ## Invariants -/

/-- The reset state meets the invariant, and its (empty) fault record describes it, at every value of the parameters. -/
def Obligations.ResetMeetsTheInvariant : Prop :=
  State.reset.Inv ∧ State.reset.FaultDescribes ∧ ∀ p, (resetWith p).Inv p ∧ (resetWith p).FaultDescribes p

/-- Every step from a state of the invariant leads to a state of the invariant: the stack stays bounded and its entries
fetchable or just past memory, PC never exceeds 0x10FE, memory stays canonical, FAULT is recorded exactly when HALTED is set
(R25, R30, R35, R110; R30 is derived there; logs 2, 7); so at every value of the parameters. -/
def Obligations.StepKeepsTheInvariant : Prop :=
  (∀ s t : State, s.Inv → step s = .next t → t.Inv) ∧
  ∀ (p : Params) (s t : State), s.Inv p → stepWith p s = .next t → t.Inv p

/-- Every schedule of host operations from a state of the invariant keeps it: resets, loads of any bytes, steps, ticks and
key inputs in any order and number, at every value of the parameters (R61; decision D19, log 21). -/
def Obligations.EveryScheduleKeepsTheInvariant : Prop :=
  ∀ (p : Params) (ops : List HostOp) (s : State), s.Inv p → (performAll ops s p).Inv p

/-- The fault record keeps describing the state, through every schedule of host operations: an underflow leaves an empty
stack, an overflow a full one and PC as information word, an access out of bounds an address beyond memory (R193 to R195,
R198, R199; decisions D1, D5, D13, D14, logs 2, 15, 16). -/
def Obligations.FaultRecordDescribesTheHaltedState : Prop :=
  ∀ (p : Params) (ops : List HostOp) (s : State), s.Inv p → s.FaultDescribes p →
    (performAll ops s p).FaultDescribes p

/-- A finished program stays finished: a jump to its own address leaves the whole state as it was (R112 corner case, R227;
decision D24). -/
def Obligations.FinishedStateIsAFixedPoint : Prop :=
  ∀ s : State, s.Finished → step s = .next s ∧ ∀ p, stepWith p s = .next s

/-! ## Frames and whole-machine rules -/

/-- The instructions whose one destination is VX leave everything else as it was: all other registers, VF among them, I, PC,
the stack, the timers, the keys, the pixels, every byte of memory, HALTED and FAULT (headers of 42_load_and_alu.md and
45_keypad_and_timers.md; decision D12, log 25). -/
def Obligations.RegisterDestinationFrame : Prop :=
  ∀ (x y : RegIdx) (nn : Byte) (s t : State) (i : Instr),
    i ∈ [.ldVxNn x nn, .addVxNn x nn, .ldVxVy x y, .orVxVy x y, .andVxVy x y, .xorVxVy x y, .ldVxDt x] →
    exec i s = .next t → Frame { regs := [x] } s t

/-- The jump and the compare-and-skip instructions write PC and nothing else (header of 41_control_flow.md; decision D12,
log 25). -/
def Obligations.TransferFrame : Prop :=
  ∀ (x y : RegIdx) (nn : Byte) (nnn : Addr) (s t : State) (i : Instr),
    i ∈ [.jp nnn, .seVxNn x nn, .sneVxNn x nn, .seVxVy x y, .sneVxVy x y] →
    exec i s = .next t → Frame { pc := true } s t

/-- LD I writes I alone, FX15 DT alone, FX18 ST alone, CLS the framebuffer alone (headers of 43, 44 and 45; decision D12,
log 25). -/
def Obligations.SingleComponentFrame : Prop :=
  ∀ (x : RegIdx) (nnn : Addr) (s t : State),
    (exec (.ldINnn nnn) s = .next t → Frame { i := true } s t) ∧
    (exec (.ldDtVx x) s = .next t → Frame { dt := true } s t) ∧
    (exec (.ldStVx x) s = .next t → Frame { st := true } s t) ∧
    (exec .cls s = .next t → Frame { fb := true } s t)

/-- Each component of the state is written only by the instructions the table of R20 names as its writers: I by ANNN, FX1E,
FX29; the stack by 2NNN, 00EE; DT by FX15; ST by FX18; KEY by none; the framebuffer by 00E0, DXYN; memory by FX33, FX55;
HALTED and FAULT by the six instructions that can raise a condition. (The column is the spec's summary; decision D12. The
draw counter is this model's, log 5.) -/
def Obligations.ComponentsAreWrittenOnlyByTheirWriters : Prop :=
  ∀ (p : Params) (i : Instr) (s t : State), execWith p i s = .next t →
    (t.i ≠ s.i → (∃ n, i = .ldINnn n) ∨ (∃ x, i = .addIVx x) ∨ ∃ x, i = .ldFVx x) ∧
    (t.stack ≠ s.stack → i = .ret ∨ ∃ n, i = .call n) ∧
    (t.dt ≠ s.dt → ∃ x, i = .ldDtVx x) ∧ (t.st ≠ s.st → ∃ x, i = .ldStVx x) ∧ t.key = s.key ∧
    (t.fb ≠ s.fb → i = .cls ∨ ∃ x y n, i = .drwVxVyN x y n) ∧
    (t.mem ≠ s.mem → (∃ x, i = .ldBVx x) ∨ ∃ x, i = .stV0Vx x) ∧
    (t.halted ≠ s.halted ∨ t.fault ≠ s.fault →
      i = .ret ∨ (∃ n, i = .call n) ∨ (∃ x y n, i = .drwVxVyN x y n) ∨ (∃ x, i = .ldBVx x) ∨
        (∃ x, i = .stV0Vx x) ∨ ∃ x, i = .ldV0Vx x) ∧
    (t.draws ≠ s.draws → ∃ x nn, i = .rndVxNn x nn)

/-- Only EX9E, EXA1 and FX0A read the keypad: any other instruction does the same whatever keys are pressed, and leaves them
pressed (R33). -/
def Obligations.OnlyKeyInstructionsReadTheKeypad : Prop :=
  ∀ (p : Params) (i : Instr) (s : State) (k : Keypad),
    (∀ x, i ≠ .skpVx x) → (∀ x, i ≠ .sknpVx x) → (∀ x, i ≠ .ldVxK x) →
    execWith p i (s.setKeys k) = mapNext (fun t => t.setKeys k) (execWith p i s)

/-- No instruction reads ST: any instruction but FX18 does the same whatever ST holds and keeps it, and FX18 does the same
whatever it held (R34, R185). -/
def Obligations.NoInstructionReadsTheSoundTimer : Prop :=
  ∀ (p : Params) (i : Instr) (s : State) (b : Byte),
    ((∀ x, i ≠ .ldStVx x) → execWith p i (s.setSt b) = mapNext (fun t => t.setSt b) (execWith p i s)) ∧
    (∀ x, execWith p (.ldStVx x) (s.setSt b) = execWith p (.ldStVx x) s)
end

