-- ==== Sys2Proof/Laws/Decode.lean ====
section
/-! SUPPORT. The fields of the encoded formats, the bytes of a word, and every instruction's decoding from its format
(30_encoding.md R71 to R78). -/

namespace Sys2Proof

/-! ## Fields of a word -/

theorem fieldX_val (w : Word) : (fieldX w).val = w.toNat / 256 % 16 := by
  simp [fieldX, slice]

theorem fieldY_val (w : Word) : (fieldY w).val = w.toNat / 16 % 16 := by
  simp [fieldY, slice]

theorem fieldN_val (w : Word) : (fieldN w).val = w.toNat % 16 := by
  simp [fieldN, slice]

theorem fieldNN_toNat (w : Word) : (fieldNN w).toNat = w.toNat % 256 := by
  simp [fieldNN, slice]

theorem fieldNNN_toNat (w : Word) : (fieldNNN w).toNat = w.toNat % 4096 := by
  simp [fieldNNN, slice]

theorem fieldF_eq (w : Word) : fieldF w = w.toNat / 4096 := by
  have := w.isLt
  simp only [fieldF, slice]; omega

theorem highByte_toNat (w : Word) : (highByte w).toNat = w.toNat / 256 := by
  have := w.isLt
  simp only [highByte, slice, BitVec.toNat_ofNat]; omega

theorem lowByte_toNat (w : Word) : (lowByte w).toNat = w.toNat % 256 := by
  simp [lowByte, slice]

/-- The word of the two bytes of a word is the word: nothing is lost in memory (R52). -/
@[simp] theorem wordOfBytes_highByte_lowByte (w : Word) : wordOfBytes (highByte w) (lowByte w) = w := by
  have := w.isLt
  apply BitVec.eq_of_toNat_eq
  simp only [wordOfBytes, BitVec.toNat_ofNat, highByte_toNat, lowByte_toNat]; omega

theorem wordOfBytes_toNat (high low : Byte) :
    (wordOfBytes high low).toNat = high.toNat * 256 + low.toNat := by
  have := high.isLt
  have := low.isLt
  simp only [wordOfBytes, BitVec.toNat_ofNat]; omega

/-! ## The formats -/

theorem formatNNN_toNat {f : Nat} (hf : f < 16) (nnn : Addr) :
    (formatNNN f nnn).toNat = f * 4096 + nnn.toNat := by
  have := nnn.isLt
  simp only [formatNNN, BitVec.toNat_ofNat]; omega

theorem formatXNN_toNat {f : Nat} (hf : f < 16) (x : RegIdx) (nn : Byte) :
    (formatXNN f x nn).toNat = f * 4096 + x.val * 256 + nn.toNat := by
  have := nn.isLt
  have := x.isLt
  simp only [formatXNN, BitVec.toNat_ofNat]; omega

theorem formatXYN_toNat {f : Nat} (hf : f < 16) (x y : RegIdx) (n : Fin 16) :
    (formatXYN f x y n).toNat = f * 4096 + x.val * 256 + y.val * 16 + n.val := by
  have := n.isLt
  have := x.isLt
  have := y.isLt
  simp only [formatXYN, BitVec.toNat_ofNat]; omega

/-- Every field of a word of format NNN (R71). -/
theorem formatNNN_fields {f : Nat} (hf : f < 16) (nnn : Addr) :
    fieldF (formatNNN f nnn) = f ∧ fieldNNN (formatNNN f nnn) = nnn := by
  have := nnn.isLt
  refine ⟨?_, BitVec.eq_of_toNat_eq ?_⟩
  · rw [fieldF_eq, formatNNN_toNat hf]; omega
  · rw [fieldNNN_toNat, formatNNN_toNat hf]; omega

/-- Every field of a word of format XNN (R71). -/
theorem formatXNN_fields {f : Nat} (hf : f < 16) (x : RegIdx) (nn : Byte) :
    fieldF (formatXNN f x nn) = f ∧ fieldX (formatXNN f x nn) = x ∧ fieldNN (formatXNN f x nn) = nn ∧
      slice (formatXNN f x nn) 7 0 = nn.toNat := by
  have := nn.isLt
  have := x.isLt
  refine ⟨?_, Fin.ext ?_, BitVec.eq_of_toNat_eq ?_, ?_⟩
  · rw [fieldF_eq, formatXNN_toNat hf]; omega
  · rw [fieldX_val, formatXNN_toNat hf]; omega
  · rw [fieldNN_toNat, formatXNN_toNat hf]; omega
  · rw [slice, formatXNN_toNat hf]; omega

/-- Every field of a word of format XYN (R71). -/
theorem formatXYN_fields {f : Nat} (hf : f < 16) (x y : RegIdx) (n : Fin 16) :
    fieldF (formatXYN f x y n) = f ∧ fieldX (formatXYN f x y n) = x ∧ fieldY (formatXYN f x y n) = y ∧
      fieldN (formatXYN f x y n) = n ∧ slice (formatXYN f x y n) 3 0 = n.val := by
  have := n.isLt
  have := x.isLt
  have := y.isLt
  refine ⟨?_, Fin.ext ?_, Fin.ext ?_, Fin.ext ?_, ?_⟩
  · rw [fieldF_eq, formatXYN_toNat hf]; omega
  · rw [fieldX_val, formatXYN_toNat hf]; omega
  · rw [fieldY_val, formatXYN_toNat hf]; omega
  · rw [fieldN_val, formatXYN_toNat hf]; omega
  · rw [slice, formatXYN_toNat hf]; omega

end Sys2Proof
end

