-- ==== Sys2Proof/Laws/State.lean ====
section
/-! SUPPORT. One lemma per field per update of the state, true by rfl, so that no proof unfolds a record update; and
what a register reads after a write. -/

namespace Sys2Proof.Machine.State

variable (s : State)

@[simp] theorem setReg_v (x : RegIdx) (b : Byte) : (s.setReg x b).v = s.v.set x b := rfl
@[simp] theorem setReg_i (x : RegIdx) (b : Byte) : (s.setReg x b).i = s.i := rfl
@[simp] theorem setReg_pc (x : RegIdx) (b : Byte) : (s.setReg x b).pc = s.pc := rfl
@[simp] theorem setReg_stack (x : RegIdx) (b : Byte) : (s.setReg x b).stack = s.stack := rfl
@[simp] theorem setReg_dt (x : RegIdx) (b : Byte) : (s.setReg x b).dt = s.dt := rfl
@[simp] theorem setReg_st (x : RegIdx) (b : Byte) : (s.setReg x b).st = s.st := rfl
@[simp] theorem setReg_key (x : RegIdx) (b : Byte) : (s.setReg x b).key = s.key := rfl
@[simp] theorem setReg_fb (x : RegIdx) (b : Byte) : (s.setReg x b).fb = s.fb := rfl
@[simp] theorem setReg_mem (x : RegIdx) (b : Byte) : (s.setReg x b).mem = s.mem := rfl
@[simp] theorem setReg_halted (x : RegIdx) (b : Byte) : (s.setReg x b).halted = s.halted := rfl
@[simp] theorem setReg_fault (x : RegIdx) (b : Byte) : (s.setReg x b).fault = s.fault := rfl
@[simp] theorem setReg_draws (x : RegIdx) (b : Byte) : (s.setReg x b).draws = s.draws := rfl

@[simp] theorem setRegs_v (w : Vector Byte 16) : (s.setRegs w).v = w := rfl
@[simp] theorem setRegs_i (w : Vector Byte 16) : (s.setRegs w).i = s.i := rfl
@[simp] theorem setRegs_pc (w : Vector Byte 16) : (s.setRegs w).pc = s.pc := rfl
@[simp] theorem setRegs_stack (w : Vector Byte 16) : (s.setRegs w).stack = s.stack := rfl
@[simp] theorem setRegs_dt (w : Vector Byte 16) : (s.setRegs w).dt = s.dt := rfl
@[simp] theorem setRegs_st (w : Vector Byte 16) : (s.setRegs w).st = s.st := rfl
@[simp] theorem setRegs_key (w : Vector Byte 16) : (s.setRegs w).key = s.key := rfl
@[simp] theorem setRegs_fb (w : Vector Byte 16) : (s.setRegs w).fb = s.fb := rfl
@[simp] theorem setRegs_mem (w : Vector Byte 16) : (s.setRegs w).mem = s.mem := rfl
@[simp] theorem setRegs_halted (w : Vector Byte 16) : (s.setRegs w).halted = s.halted := rfl
@[simp] theorem setRegs_fault (w : Vector Byte 16) : (s.setRegs w).fault = s.fault := rfl
@[simp] theorem setRegs_draws (w : Vector Byte 16) : (s.setRegs w).draws = s.draws := rfl

@[simp] theorem setI_v (w : Word) : (s.setI w).v = s.v := rfl
@[simp] theorem setI_i (w : Word) : (s.setI w).i = w := rfl
@[simp] theorem setI_pc (w : Word) : (s.setI w).pc = s.pc := rfl
@[simp] theorem setI_stack (w : Word) : (s.setI w).stack = s.stack := rfl
@[simp] theorem setI_dt (w : Word) : (s.setI w).dt = s.dt := rfl
@[simp] theorem setI_st (w : Word) : (s.setI w).st = s.st := rfl
@[simp] theorem setI_key (w : Word) : (s.setI w).key = s.key := rfl
@[simp] theorem setI_fb (w : Word) : (s.setI w).fb = s.fb := rfl
@[simp] theorem setI_mem (w : Word) : (s.setI w).mem = s.mem := rfl
@[simp] theorem setI_halted (w : Word) : (s.setI w).halted = s.halted := rfl
@[simp] theorem setI_fault (w : Word) : (s.setI w).fault = s.fault := rfl
@[simp] theorem setI_draws (w : Word) : (s.setI w).draws = s.draws := rfl

@[simp] theorem setI_reg (w : Word) (r : RegIdx) : (s.setI w).reg r = s.reg r := rfl

@[simp] theorem setPc_v (w : Word) : (s.setPc w).v = s.v := rfl
@[simp] theorem setPc_i (w : Word) : (s.setPc w).i = s.i := rfl
@[simp] theorem setPc_pc (w : Word) : (s.setPc w).pc = w := rfl
@[simp] theorem setPc_stack (w : Word) : (s.setPc w).stack = s.stack := rfl
@[simp] theorem setPc_dt (w : Word) : (s.setPc w).dt = s.dt := rfl
@[simp] theorem setPc_st (w : Word) : (s.setPc w).st = s.st := rfl
@[simp] theorem setPc_key (w : Word) : (s.setPc w).key = s.key := rfl
@[simp] theorem setPc_fb (w : Word) : (s.setPc w).fb = s.fb := rfl
@[simp] theorem setPc_mem (w : Word) : (s.setPc w).mem = s.mem := rfl
@[simp] theorem setPc_halted (w : Word) : (s.setPc w).halted = s.halted := rfl
@[simp] theorem setPc_fault (w : Word) : (s.setPc w).fault = s.fault := rfl
@[simp] theorem setPc_draws (w : Word) : (s.setPc w).draws = s.draws := rfl

@[simp] theorem setPc_reg (w : Word) (r : RegIdx) : (s.setPc w).reg r = s.reg r := rfl

@[simp] theorem setStack_v (l : List Word) : (s.setStack l).v = s.v := rfl
@[simp] theorem setStack_i (l : List Word) : (s.setStack l).i = s.i := rfl
@[simp] theorem setStack_pc (l : List Word) : (s.setStack l).pc = s.pc := rfl
@[simp] theorem setStack_stack (l : List Word) : (s.setStack l).stack = l := rfl
@[simp] theorem setStack_dt (l : List Word) : (s.setStack l).dt = s.dt := rfl
@[simp] theorem setStack_st (l : List Word) : (s.setStack l).st = s.st := rfl
@[simp] theorem setStack_key (l : List Word) : (s.setStack l).key = s.key := rfl
@[simp] theorem setStack_fb (l : List Word) : (s.setStack l).fb = s.fb := rfl
@[simp] theorem setStack_mem (l : List Word) : (s.setStack l).mem = s.mem := rfl
@[simp] theorem setStack_halted (l : List Word) : (s.setStack l).halted = s.halted := rfl
@[simp] theorem setStack_fault (l : List Word) : (s.setStack l).fault = s.fault := rfl
@[simp] theorem setStack_draws (l : List Word) : (s.setStack l).draws = s.draws := rfl

@[simp] theorem setStack_reg (l : List Word) (r : RegIdx) : (s.setStack l).reg r = s.reg r := rfl

@[simp] theorem setDt_v (b : Byte) : (s.setDt b).v = s.v := rfl
@[simp] theorem setDt_i (b : Byte) : (s.setDt b).i = s.i := rfl
@[simp] theorem setDt_pc (b : Byte) : (s.setDt b).pc = s.pc := rfl
@[simp] theorem setDt_stack (b : Byte) : (s.setDt b).stack = s.stack := rfl
@[simp] theorem setDt_dt (b : Byte) : (s.setDt b).dt = b := rfl
@[simp] theorem setDt_st (b : Byte) : (s.setDt b).st = s.st := rfl
@[simp] theorem setDt_key (b : Byte) : (s.setDt b).key = s.key := rfl
@[simp] theorem setDt_fb (b : Byte) : (s.setDt b).fb = s.fb := rfl
@[simp] theorem setDt_mem (b : Byte) : (s.setDt b).mem = s.mem := rfl
@[simp] theorem setDt_halted (b : Byte) : (s.setDt b).halted = s.halted := rfl
@[simp] theorem setDt_fault (b : Byte) : (s.setDt b).fault = s.fault := rfl
@[simp] theorem setDt_draws (b : Byte) : (s.setDt b).draws = s.draws := rfl

@[simp] theorem setDt_reg (b : Byte) (r : RegIdx) : (s.setDt b).reg r = s.reg r := rfl

@[simp] theorem setSt_v (b : Byte) : (s.setSt b).v = s.v := rfl
@[simp] theorem setSt_i (b : Byte) : (s.setSt b).i = s.i := rfl
@[simp] theorem setSt_pc (b : Byte) : (s.setSt b).pc = s.pc := rfl
@[simp] theorem setSt_stack (b : Byte) : (s.setSt b).stack = s.stack := rfl
@[simp] theorem setSt_dt (b : Byte) : (s.setSt b).dt = s.dt := rfl
@[simp] theorem setSt_st (b : Byte) : (s.setSt b).st = b := rfl
@[simp] theorem setSt_key (b : Byte) : (s.setSt b).key = s.key := rfl
@[simp] theorem setSt_fb (b : Byte) : (s.setSt b).fb = s.fb := rfl
@[simp] theorem setSt_mem (b : Byte) : (s.setSt b).mem = s.mem := rfl
@[simp] theorem setSt_halted (b : Byte) : (s.setSt b).halted = s.halted := rfl
@[simp] theorem setSt_fault (b : Byte) : (s.setSt b).fault = s.fault := rfl
@[simp] theorem setSt_draws (b : Byte) : (s.setSt b).draws = s.draws := rfl

@[simp] theorem setSt_reg (b : Byte) (r : RegIdx) : (s.setSt b).reg r = s.reg r := rfl

@[simp] theorem setKeys_v (k : Keypad) : (s.setKeys k).v = s.v := rfl
@[simp] theorem setKeys_i (k : Keypad) : (s.setKeys k).i = s.i := rfl
@[simp] theorem setKeys_pc (k : Keypad) : (s.setKeys k).pc = s.pc := rfl
@[simp] theorem setKeys_stack (k : Keypad) : (s.setKeys k).stack = s.stack := rfl
@[simp] theorem setKeys_dt (k : Keypad) : (s.setKeys k).dt = s.dt := rfl
@[simp] theorem setKeys_st (k : Keypad) : (s.setKeys k).st = s.st := rfl
@[simp] theorem setKeys_key (k : Keypad) : (s.setKeys k).key = k := rfl
@[simp] theorem setKeys_fb (k : Keypad) : (s.setKeys k).fb = s.fb := rfl
@[simp] theorem setKeys_mem (k : Keypad) : (s.setKeys k).mem = s.mem := rfl
@[simp] theorem setKeys_halted (k : Keypad) : (s.setKeys k).halted = s.halted := rfl
@[simp] theorem setKeys_fault (k : Keypad) : (s.setKeys k).fault = s.fault := rfl
@[simp] theorem setKeys_draws (k : Keypad) : (s.setKeys k).draws = s.draws := rfl

@[simp] theorem setKeys_reg (k : Keypad) (r : RegIdx) : (s.setKeys k).reg r = s.reg r := rfl

@[simp] theorem setFb_v (f : Framebuffer) : (s.setFb f).v = s.v := rfl
@[simp] theorem setFb_i (f : Framebuffer) : (s.setFb f).i = s.i := rfl
@[simp] theorem setFb_pc (f : Framebuffer) : (s.setFb f).pc = s.pc := rfl
@[simp] theorem setFb_stack (f : Framebuffer) : (s.setFb f).stack = s.stack := rfl
@[simp] theorem setFb_dt (f : Framebuffer) : (s.setFb f).dt = s.dt := rfl
@[simp] theorem setFb_st (f : Framebuffer) : (s.setFb f).st = s.st := rfl
@[simp] theorem setFb_key (f : Framebuffer) : (s.setFb f).key = s.key := rfl
@[simp] theorem setFb_fb (f : Framebuffer) : (s.setFb f).fb = f := rfl
@[simp] theorem setFb_mem (f : Framebuffer) : (s.setFb f).mem = s.mem := rfl
@[simp] theorem setFb_halted (f : Framebuffer) : (s.setFb f).halted = s.halted := rfl
@[simp] theorem setFb_fault (f : Framebuffer) : (s.setFb f).fault = s.fault := rfl
@[simp] theorem setFb_draws (f : Framebuffer) : (s.setFb f).draws = s.draws := rfl

@[simp] theorem setFb_reg (f : Framebuffer) (r : RegIdx) : (s.setFb f).reg r = s.reg r := rfl

@[simp] theorem setMem_v (m : Memory) : (s.setMem m).v = s.v := rfl
@[simp] theorem setMem_i (m : Memory) : (s.setMem m).i = s.i := rfl
@[simp] theorem setMem_pc (m : Memory) : (s.setMem m).pc = s.pc := rfl
@[simp] theorem setMem_stack (m : Memory) : (s.setMem m).stack = s.stack := rfl
@[simp] theorem setMem_dt (m : Memory) : (s.setMem m).dt = s.dt := rfl
@[simp] theorem setMem_st (m : Memory) : (s.setMem m).st = s.st := rfl
@[simp] theorem setMem_key (m : Memory) : (s.setMem m).key = s.key := rfl
@[simp] theorem setMem_fb (m : Memory) : (s.setMem m).fb = s.fb := rfl
@[simp] theorem setMem_mem (m : Memory) : (s.setMem m).mem = m := rfl
@[simp] theorem setMem_halted (m : Memory) : (s.setMem m).halted = s.halted := rfl
@[simp] theorem setMem_fault (m : Memory) : (s.setMem m).fault = s.fault := rfl
@[simp] theorem setMem_draws (m : Memory) : (s.setMem m).draws = s.draws := rfl

@[simp] theorem setMem_reg (m : Memory) (r : RegIdx) : (s.setMem m).reg r = s.reg r := rfl

@[simp] theorem countDraw_v : (s.countDraw).v = s.v := rfl
@[simp] theorem countDraw_i : (s.countDraw).i = s.i := rfl
@[simp] theorem countDraw_pc : (s.countDraw).pc = s.pc := rfl
@[simp] theorem countDraw_stack : (s.countDraw).stack = s.stack := rfl
@[simp] theorem countDraw_dt : (s.countDraw).dt = s.dt := rfl
@[simp] theorem countDraw_st : (s.countDraw).st = s.st := rfl
@[simp] theorem countDraw_key : (s.countDraw).key = s.key := rfl
@[simp] theorem countDraw_fb : (s.countDraw).fb = s.fb := rfl
@[simp] theorem countDraw_mem : (s.countDraw).mem = s.mem := rfl
@[simp] theorem countDraw_halted : (s.countDraw).halted = s.halted := rfl
@[simp] theorem countDraw_fault : (s.countDraw).fault = s.fault := rfl
@[simp] theorem countDraw_draws : (s.countDraw).draws = s.draws + 1 := rfl

@[simp] theorem countDraw_reg (r : RegIdx) : (s.countDraw).reg r = s.reg r := rfl

@[simp] theorem raise_v (c : FatalCause) (w : Word) : (s.raise c w).v = s.v := rfl
@[simp] theorem raise_i (c : FatalCause) (w : Word) : (s.raise c w).i = s.i := rfl
@[simp] theorem raise_pc (c : FatalCause) (w : Word) : (s.raise c w).pc = s.pc := rfl
@[simp] theorem raise_stack (c : FatalCause) (w : Word) : (s.raise c w).stack = s.stack := rfl
@[simp] theorem raise_dt (c : FatalCause) (w : Word) : (s.raise c w).dt = s.dt := rfl
@[simp] theorem raise_st (c : FatalCause) (w : Word) : (s.raise c w).st = s.st := rfl
@[simp] theorem raise_key (c : FatalCause) (w : Word) : (s.raise c w).key = s.key := rfl
@[simp] theorem raise_fb (c : FatalCause) (w : Word) : (s.raise c w).fb = s.fb := rfl
@[simp] theorem raise_mem (c : FatalCause) (w : Word) : (s.raise c w).mem = s.mem := rfl
@[simp] theorem raise_halted (c : FatalCause) (w : Word) : (s.raise c w).halted = true := rfl
@[simp] theorem raise_fault (c : FatalCause) (w : Word) : (s.raise c w).fault = some ⟨c, w⟩ := rfl
@[simp] theorem raise_draws (c : FatalCause) (w : Word) : (s.raise c w).draws = s.draws := rfl

@[simp] theorem raise_reg (c : FatalCause) (w : Word) (r : RegIdx) : (s.raise c w).reg r = s.reg r := rfl

@[simp] theorem advance_v : (s.advance).v = s.v := rfl
@[simp] theorem advance_i : (s.advance).i = s.i := rfl
@[simp] theorem advance_pc : (s.advance).pc = s.pc + 2#16 := rfl
@[simp] theorem advance_stack : (s.advance).stack = s.stack := rfl
@[simp] theorem advance_dt : (s.advance).dt = s.dt := rfl
@[simp] theorem advance_st : (s.advance).st = s.st := rfl
@[simp] theorem advance_key : (s.advance).key = s.key := rfl
@[simp] theorem advance_fb : (s.advance).fb = s.fb := rfl
@[simp] theorem advance_mem : (s.advance).mem = s.mem := rfl
@[simp] theorem advance_halted : (s.advance).halted = s.halted := rfl
@[simp] theorem advance_fault : (s.advance).fault = s.fault := rfl
@[simp] theorem advance_draws : (s.advance).draws = s.draws := rfl

@[simp] theorem advance_reg (r : RegIdx) : (s.advance).reg r = s.reg r := rfl

@[simp] theorem setVF_i (b : Bool) : (s.setVF b).i = s.i := rfl
@[simp] theorem setVF_pc (b : Bool) : (s.setVF b).pc = s.pc := rfl
@[simp] theorem setVF_stack (b : Bool) : (s.setVF b).stack = s.stack := rfl
@[simp] theorem setVF_dt (b : Bool) : (s.setVF b).dt = s.dt := rfl
@[simp] theorem setVF_st (b : Bool) : (s.setVF b).st = s.st := rfl
@[simp] theorem setVF_key (b : Bool) : (s.setVF b).key = s.key := rfl
@[simp] theorem setVF_fb (b : Bool) : (s.setVF b).fb = s.fb := rfl
@[simp] theorem setVF_mem (b : Bool) : (s.setVF b).mem = s.mem := rfl
@[simp] theorem setVF_halted (b : Bool) : (s.setVF b).halted = s.halted := rfl
@[simp] theorem setVF_fault (b : Bool) : (s.setVF b).fault = s.fault := rfl
@[simp] theorem setVF_draws (b : Bool) : (s.setVF b).draws = s.draws := rfl

@[simp] theorem setResultFlag_i (x : RegIdx) (b : Byte) (f : Bool) : (s.setResultFlag x b f).i = s.i := rfl
@[simp] theorem setResultFlag_pc (x : RegIdx) (b : Byte) (f : Bool) : (s.setResultFlag x b f).pc = s.pc := rfl
@[simp] theorem setResultFlag_stack (x : RegIdx) (b : Byte) (f : Bool) : (s.setResultFlag x b f).stack = s.stack := rfl
@[simp] theorem setResultFlag_dt (x : RegIdx) (b : Byte) (f : Bool) : (s.setResultFlag x b f).dt = s.dt := rfl
@[simp] theorem setResultFlag_st (x : RegIdx) (b : Byte) (f : Bool) : (s.setResultFlag x b f).st = s.st := rfl
@[simp] theorem setResultFlag_key (x : RegIdx) (b : Byte) (f : Bool) : (s.setResultFlag x b f).key = s.key := rfl
@[simp] theorem setResultFlag_fb (x : RegIdx) (b : Byte) (f : Bool) : (s.setResultFlag x b f).fb = s.fb := rfl
@[simp] theorem setResultFlag_mem (x : RegIdx) (b : Byte) (f : Bool) : (s.setResultFlag x b f).mem = s.mem := rfl
@[simp] theorem setResultFlag_halted (x : RegIdx) (b : Byte) (f : Bool) : (s.setResultFlag x b f).halted = s.halted := rfl
@[simp] theorem setResultFlag_fault (x : RegIdx) (b : Byte) (f : Bool) : (s.setResultFlag x b f).fault = s.fault := rfl
@[simp] theorem setResultFlag_draws (x : RegIdx) (b : Byte) (f : Bool) : (s.setResultFlag x b f).draws = s.draws := rfl

/-- A register reads what was written to it, and every other register reads as before (R21). -/
theorem setReg_reg (x : RegIdx) (b : Byte) (r : RegIdx) :
    (s.setReg x b).reg r = if r = x then b else s.reg r := by
  simp only [reg, setReg, Fin.getElem_fin, Vector.getElem_set, Fin.ext_iff, eq_comm]

@[simp] theorem setReg_reg_self (x : RegIdx) (b : Byte) : (s.setReg x b).reg x = b := by
  simp [setReg_reg]

@[simp] theorem setReg_reg_of_ne {x r : RegIdx} (h : r ≠ x) (b : Byte) : (s.setReg x b).reg r = s.reg r := by
  simp [setReg_reg, h]

/-- VF after a flag write is the flag (R22). -/
@[simp] theorem setVF_reg_vf (f : Bool) : (s.setVF f).reg 15 = if f then 0x01#8 else 0x00#8 := by
  simp [setVF]

@[simp] theorem setVF_reg_of_ne {r : RegIdx} (h : r ≠ 15) (f : Bool) : (s.setVF f).reg r = s.reg r := by
  simp [setVF, h]

/-- VF holds the flag whatever X is, X = 15 included (R23, R129). -/
@[simp] theorem setResultFlag_reg_vf (x : RegIdx) (b : Byte) (f : Bool) :
    (s.setResultFlag x b f).reg 15 = if f then 0x01#8 else 0x00#8 := by
  simp [setResultFlag]

/-- VX holds the result unless it is VF (R129). -/
theorem setResultFlag_reg_result {x : RegIdx} (h : x ≠ 15) (b : Byte) (f : Bool) :
    (s.setResultFlag x b f).reg x = b := by
  simp [setResultFlag, h]

theorem setResultFlag_reg_of_ne {x r : RegIdx} (hx : r ≠ x) (h15 : r ≠ 15) (b : Byte) (f : Bool) :
    (s.setResultFlag x b f).reg r = s.reg r := by
  simp [setResultFlag, hx, h15]

@[simp] theorem setRegs_reg (w : Vector Byte 16) (r : RegIdx) : (s.setRegs w).reg r = w[r] := rfl

/-- States with the same registers read through `reg` have the same register file. -/
theorem v_eq_of_reg {s t : State} (h : ∀ r, t.reg r = s.reg r) : t.v = s.v := by
  apply Vector.ext
  intro j hj
  exact h ⟨j, hj⟩

end Sys2Proof.Machine.State
end

