-- ==== Sys2Proof/Laws/Framebuffer.lean ====
section
/-! SUPPORT. The laws of the framebuffer: pixels after a flip, framebuffers with the same pixels are equal, and what
drawing one sprite row and a whole sprite does to each pixel and to the hit (44_display.md R171). -/

namespace Sys2Proof.Machine

/-! ## Pixels -/

theorem pixel_eq_getElem (f : Framebuffer) {y x : Nat} (hy : y < 32) (hx : x < 64) : pixel f y x = f[y][x] := by
  simp [pixel, Vector.getD, hy, hx]

theorem pixel_of_row_outside (f : Framebuffer) {y : Nat} (x : Nat) (hy : 32 ≤ y) : pixel f y x = false := by
  have h : f.getD y (Vector.replicate 64 false) = Vector.replicate 64 false := by
    simp [Vector.getD, Nat.not_lt.2 hy]
  rw [pixel, h]
  by_cases hx : x < 64 <;> simp [Vector.getD, hx]

theorem pixel_of_column_outside (f : Framebuffer) (y : Nat) {x : Nat} (hx : 64 ≤ x) : pixel f y x = false := by
  simp [pixel, Vector.getD, Nat.not_lt.2 hx]

/-- Framebuffers with the same pixels are the same data (R32). -/
theorem fb_ext {f g : Framebuffer} (h : ∀ y x, pixel f y x = pixel g y x) : f = g := by
  apply Vector.ext
  intro y hy
  apply Vector.ext
  intro x hx
  rw [← pixel_eq_getElem f hy hx, ← pixel_eq_getElem g hy hx, h]

@[simp] theorem pixel_clearedFb (y x : Nat) : pixel clearedFb y x = false := by
  by_cases hy : y < 32
  · by_cases hx : x < 64
    · rw [pixel_eq_getElem _ hy hx]; simp [clearedFb]
    · exact pixel_of_column_outside _ _ (by omega)
  · exact pixel_of_row_outside _ _ (by omega)

/-- A flip inverts its pixel and leaves every other pixel as it was. -/
theorem pixel_flipPixel (f : Framebuffer) {y x : Nat} (hy : y < 32) (hx : x < 64) (y' x' : Nat) :
    pixel (flipPixel f y x) y' x' = (pixel f y' x' ^^ decide (y' = y ∧ x' = x)) := by
  by_cases hy' : y' < 32
  · by_cases hx' : x' < 64
    · rw [pixel_eq_getElem _ hy' hx', pixel_eq_getElem _ hy' hx']
      simp only [flipPixel, pixel_eq_getElem f hy hx]
      by_cases h : y' = y
      · subst h
        by_cases h2 : x' = x
        · subst h2; simp [Vector.getD, hy]
        · simp [Vector.getD, hy, h2, Vector.getElem_setIfInBounds_ne, Ne.symm h2]
      · simp [h, Vector.getElem_setIfInBounds_ne, Ne.symm h]
    · rw [pixel_of_column_outside _ _ (by omega), pixel_of_column_outside _ _ (by omega)]
      simp; omega
  · rw [pixel_of_row_outside _ _ (by omega), pixel_of_row_outside _ _ (by omega)]
    simp; omega

theorem plot_pixel (c : Canvas) {y x : Nat} (hy : y < 32) (hx : x < 64) (y' x' : Nat) :
    pixel (c.plot y x).fb y' x' = (pixel c.fb y' x' ^^ decide (y' = y ∧ x' = x)) :=
  pixel_flipPixel c.fb hy hx y' x'

@[simp] theorem plot_hit (c : Canvas) (y x : Nat) : (c.plot y x).hit = (c.hit || pixel c.fb y x) := rfl

/-! ## One sprite row -/

/-- Whether a set bit of the first m columns of a sprite row at x0 falls on column x of the grid. -/
def rowCovers (b : Byte) (x0 m x : Nat) : Bool :=
  decide (x0 ≤ x ∧ x < x0 + m ∧ x ≤ 63) && spriteBit b (x - x0)

theorem rowCovers_succ (b : Byte) (x0 m x : Nat) :
    rowCovers b x0 (m + 1) x =
      (rowCovers b x0 m x ^^ decide (x = x0 + m ∧ x0 + m ≤ 63 ∧ spriteBit b m = true)) := by
  simp only [rowCovers]
  by_cases h : x = x0 + m
  · subst h
    by_cases h63 : x0 + m ≤ 63 <;> simp [h63]
  · have : (x0 ≤ x ∧ x < x0 + (m + 1) ∧ x ≤ 63) ↔ (x0 ≤ x ∧ x < x0 + m ∧ x ≤ 63) := by omega
    simp [this, h]

/-- The first m columns of one row, drawn: `Canvas.drawRow` is the case m = 8. -/
def drawColumns (c : Canvas) (b : Byte) (y x0 m : Nat) : Canvas :=
  (List.range m).foldl
    (fun c k => if x0 + k ≤ 63 ∧ spriteBit b k = true then c.plot y (x0 + k) else c) c

theorem drawColumns_succ (c : Canvas) (b : Byte) (y x0 m : Nat) :
    drawColumns c b y x0 (m + 1) =
      if x0 + m ≤ 63 ∧ spriteBit b m = true then (drawColumns c b y x0 m).plot y (x0 + m)
      else drawColumns c b y x0 m := by
  simp [drawColumns, List.range_succ]

/-- Everything drawing one row does: every pixel under a set bit is inverted, the others stay, and the hit is raised
exactly when one of those pixels was on (R171). -/
theorem drawRow_spec (c : Canvas) (b : Byte) {y : Nat} (x0 : Nat) (hy : y < 32) :
    (∀ y' x', pixel (c.drawRow b y x0).fb y' x' = (pixel c.fb y' x' ^^ (decide (y' = y) && rowCovers b x0 8 x'))) ∧
      ((c.drawRow b y x0).hit = true ↔ c.hit = true ∨ ∃ x', rowCovers b x0 8 x' = true ∧ pixel c.fb y x' = true) := by
  suffices key : ∀ m,
      (∀ y' x', pixel (drawColumns c b y x0 m).fb y' x' =
        (pixel c.fb y' x' ^^ (decide (y' = y) && rowCovers b x0 m x'))) ∧
      ((drawColumns c b y x0 m).hit = true ↔
        c.hit = true ∨ ∃ x', rowCovers b x0 m x' = true ∧ pixel c.fb y x' = true) from key 8
  intro m
  induction m with
  | zero =>
    have h0 : ∀ x', rowCovers b x0 0 x' = false := by
      intro x'; simp only [rowCovers, Bool.and_eq_false_iff, decide_eq_false_iff_not]; left; omega
    simp [drawColumns, h0]
  | succ m ih =>
    obtain ⟨ihp, ihh⟩ := ih
    simp only [drawColumns_succ]
    split
    · next hc =>
      obtain ⟨h63, hb⟩ := hc
      refine ⟨fun y' x' => ?_, ?_⟩
      · rw [plot_pixel _ hy (by omega), ihp, rowCovers_succ]
        by_cases h1 : y' = y <;> by_cases h2 : x' = x0 + m <;> simp [h1, h2, h63, hb]
      · have hnone : rowCovers b x0 m (x0 + m) = false := by
          simp only [rowCovers, Bool.and_eq_false_iff, decide_eq_false_iff_not]; left; omega
        rw [plot_hit, Bool.or_eq_true, ihh, ihp]
        constructor
        · rintro ((h | ⟨x', hx', hp⟩) | h)
          · exact .inl h
          · refine .inr ⟨x', ?_, hp⟩
            have hne : x' ≠ x0 + m := by rintro rfl; simp [hnone] at hx'
            simp [rowCovers_succ, hx', hne]
          · refine .inr ⟨x0 + m, ?_, by simpa [hnone] using h⟩
            simp [rowCovers_succ, hnone, h63, hb]
        · rintro (h | ⟨x', hx', hp⟩)
          · exact .inl (.inl h)
          · by_cases hx : x' = x0 + m
            · subst hx; exact .inr (by simpa [hnone] using hp)
            · exact .inl (.inr ⟨x', by simpa [rowCovers_succ, hx] using hx', hp⟩)
    · next hc =>
      have hsame : ∀ x', rowCovers b x0 (m + 1) x' = rowCovers b x0 m x' := by
        intro x'
        have : ¬ (x' = x0 + m ∧ x0 + m ≤ 63 ∧ spriteBit b m = true) := fun h => hc h.2
        simp [rowCovers_succ, this]
      simpa only [hsame] using ⟨ihp, ihh⟩

/-! ## A whole sprite -/

/-- Whether a set bit of the first n rows of a sprite at (x0, y0) falls on the grid's pixel (y, x). -/
def spriteOn (rowByte : Nat → Byte) (y0 x0 n y x : Nat) : Bool :=
  decide (y0 ≤ y ∧ y < y0 + n ∧ y ≤ 31) && rowCovers (rowByte (y - y0)) x0 8 x

theorem spriteOn_succ (rowByte : Nat → Byte) (y0 x0 n y x : Nat) :
    spriteOn rowByte y0 x0 (n + 1) y x =
      (spriteOn rowByte y0 x0 n y x ^^ (decide (y = y0 + n ∧ y0 + n ≤ 31) && rowCovers (rowByte n) x0 8 x)) := by
  simp only [spriteOn]
  by_cases h : y = y0 + n
  · subst h
    by_cases h31 : y0 + n ≤ 31 <;> simp [h31]
  · have : (y0 ≤ y ∧ y < y0 + (n + 1) ∧ y ≤ 31) ↔ (y0 ≤ y ∧ y < y0 + n ∧ y ≤ 31) := by omega
    simp [this, h]

/-- Everything drawing a sprite does: every pixel under a set bit inside the grid is inverted, every other pixel stays,
and the hit is raised exactly when one of those pixels was on (R171). -/
theorem drawSprite_spec (c : Canvas) (rowByte : Nat → Byte) (y0 x0 n : Nat) :
    (∀ y x, pixel (c.drawSprite rowByte y0 x0 n).fb y x = (pixel c.fb y x ^^ spriteOn rowByte y0 x0 n y x)) ∧
      ((c.drawSprite rowByte y0 x0 n).hit = true ↔
        c.hit = true ∨ ∃ y x, spriteOn rowByte y0 x0 n y x = true ∧ pixel c.fb y x = true) := by
  induction n with
  | zero =>
    have h0 : ∀ y x, spriteOn rowByte y0 x0 0 y x = false := by
      intro y x; simp only [spriteOn, Bool.and_eq_false_iff, decide_eq_false_iff_not]; left; omega
    simp [Canvas.drawSprite, h0]
  | succ n ih =>
    obtain ⟨ihp, ihh⟩ := ih
    simp only [Canvas.drawSprite, List.range_succ, List.foldl_append, List.foldl_cons, List.foldl_nil]
    rw [← Canvas.drawSprite]
    split
    · next h31 =>
      obtain ⟨hp, hh⟩ := drawRow_spec (c.drawSprite rowByte y0 x0 n) (rowByte n) (y := y0 + n) x0 (by omega)
      have hnone : ∀ x, spriteOn rowByte y0 x0 n (y0 + n) x = false := by
        intro x; simp only [spriteOn, Bool.and_eq_false_iff, decide_eq_false_iff_not]; left; omega
      refine ⟨fun y x => ?_, ?_⟩
      · rw [hp, ihp, spriteOn_succ]; simp [h31]
      · rw [hh, ihh]
        constructor
        · rintro ((h | ⟨y, x, hc, hx⟩) | ⟨x, hc, hx⟩)
          · exact .inl h
          · have hne : y ≠ y0 + n := by rintro rfl; simp [hnone] at hc
            exact .inr ⟨y, x, by simp [spriteOn_succ, hc, hne], hx⟩
          · exact .inr ⟨y0 + n, x, by simp [spriteOn_succ, hnone, h31, hc], by simpa [ihp, hnone] using hx⟩
        · rintro (h | ⟨y, x, hc, hx⟩)
          · exact .inl (.inl h)
          · by_cases hy : y = y0 + n
            · subst hy
              exact .inr ⟨x, by simpa [spriteOn_succ, hnone, h31] using hc, by simpa [ihp, hnone] using hx⟩
            · exact .inl (.inr ⟨y, x, by simpa [spriteOn_succ, hy] using hc, hx⟩)
    · next h31 =>
      have hsame : ∀ y x, spriteOn rowByte y0 x0 (n + 1) y x = spriteOn rowByte y0 x0 n y x := by
        intro y x; simp [spriteOn_succ, h31]
      simpa only [hsame] using ⟨ihp, ihh⟩

end Sys2Proof.Machine
end

