-- ==== Sys2Proof/Laws/Memory.lean ====
section
/-! SUPPORT. The laws of memory: a read after a write, every operation keeps the canonical form, and what a sequence of
stored bytes reads as (20_memory.md R55, R56, R65). -/

namespace Sys2Proof.Machine

/-! ## Cell lists -/

theorem cellsWf_cons {lo a : Nat} {b : Byte} {cells : List Host.Cell} :
    cellsWf lo ((a, b) :: cells) = true ↔
      lo ≤ a ∧ a ≤ 0xFFF ∧ b ≠ resetByte a ∧ cellsWf (a + 1) cells = true := by
  simp [cellsWf, and_assoc]

theorem cellsWf_mono {lo lo' : Nat} {cells : List Host.Cell} (h : cellsWf lo' cells = true) (hl : lo ≤ lo') :
    cellsWf lo cells = true := by
  cases cells with
  | nil => rfl
  | cons c cells =>
    obtain ⟨a, b⟩ := c
    rw [cellsWf_cons] at h ⊢
    exact ⟨by omega, h.2⟩

/-- A rising list lists no address below its bound. -/
theorem cellAt_eq_none_of_lt {lo a : Nat} {cells : List Host.Cell} (h : cellsWf lo cells = true) (ha : a < lo) :
    cellAt a cells = none := by
  induction cells generalizing lo with
  | nil => rfl
  | cons c cells ih =>
    obtain ⟨a', b'⟩ := c
    rw [cellsWf_cons] at h
    have hne : a ≠ a' := by omega
    simp only [cellAt, hne, if_false]
    exact ih h.2.2.2 (by omega)

theorem cellAt_insertCell {a a' : Nat} {b : Byte} {cells : List Host.Cell} :
    cellAt a' (insertCell a b cells) = if a' = a then some b else cellAt a' cells := by
  induction cells with
  | nil => simp [insertCell, cellAt]
  | cons c cells ih =>
    obtain ⟨a₁, b₁⟩ := c
    simp only [insertCell]
    split
    · simp [cellAt]
    · split
      · next h => subst h; simp only [cellAt]; split <;> simp_all
      · next h₁ h₂ =>
        simp only [cellAt, ih]
        by_cases h : a' = a₁
        · subst h; simp [Ne.symm h₂]
        · simp [h]

theorem cellsWf_insertCell {lo a : Nat} {b : Byte} {cells : List Host.Cell} (h : cellsWf lo cells = true)
    (hlo : lo ≤ a) (ha : a ≤ 0xFFF) (hb : b ≠ resetByte a) : cellsWf lo (insertCell a b cells) = true := by
  induction cells generalizing lo with
  | nil => simp [insertCell, cellsWf, hlo, ha, hb]
  | cons c cells ih =>
    obtain ⟨a₁, b₁⟩ := c
    have h' := cellsWf_cons.1 h
    simp only [insertCell]
    split
    · next hlt => exact cellsWf_cons.2 ⟨hlo, ha, hb, cellsWf_cons.2 ⟨hlt, h'.2⟩⟩
    · split
      · next heq => subst heq; exact cellsWf_cons.2 ⟨hlo, ha, hb, h'.2.2.2⟩
      · exact cellsWf_cons.2 ⟨h'.1, h'.2.1, h'.2.2.1, ih h'.2.2.2 (by omega)⟩

theorem cellAt_eraseCell {lo a a' : Nat} {cells : List Host.Cell} (h : cellsWf lo cells = true) :
    cellAt a' (eraseCell a cells) = if a' = a then none else cellAt a' cells := by
  induction cells generalizing lo with
  | nil => simp [eraseCell, cellAt]
  | cons c cells ih =>
    obtain ⟨a₁, b₁⟩ := c
    have h' := (cellsWf_cons.1 h).2.2.2
    simp only [eraseCell]
    split
    · next heq =>
      subst heq
      by_cases ha : a' = a
      · subst ha; simp [cellAt_eq_none_of_lt h' (Nat.lt_succ_self _)]
      · simp [cellAt, ha]
    · next hne =>
      simp only [cellAt, ih h']
      by_cases ha : a' = a₁
      · subst ha; simp [Ne.symm hne]
      · simp [ha]

theorem cellsWf_eraseCell {lo a : Nat} {cells : List Host.Cell} (h : cellsWf lo cells = true) :
    cellsWf lo (eraseCell a cells) = true := by
  induction cells generalizing lo with
  | nil => rfl
  | cons c cells ih =>
    obtain ⟨a₁, b₁⟩ := c
    have h' := cellsWf_cons.1 h
    simp only [eraseCell]
    split
    · exact cellsWf_mono h'.2.2.2 (by omega)
    · exact cellsWf_cons.2 ⟨h'.1, h'.2.1, h'.2.2.1, ih h'.2.2.2⟩

/-! ## Reading and writing one byte -/

/-- A read succeeds exactly inside memory (R55). -/
theorem Memory.read_eq_none_iff (m : Memory) (a : Nat) : m.read a = none ↔ 0xFFF < a := by
  simp [Memory.read]

theorem Memory.read_eq_some_byteAt (m : Memory) {a : Nat} (h : a ≤ 0xFFF) : m.read a = some (m.byteAt a) := by
  simp [Memory.byteAt, Memory.read, Nat.not_lt.2 h]

theorem Memory.byteAt_eq_of_read_eq {m m' : Memory} {a : Nat} (h : m'.read a = m.read a) :
    m'.byteAt a = m.byteAt a := by
  simp [Memory.byteAt, h]

/-- A write succeeds exactly inside memory (R56). -/
theorem Memory.write_eq_none_iff (m : Memory) (a : Nat) (b : Byte) : m.write a b = none ↔ 0xFFF < a := by
  simp [Memory.write]

/-- Everything a write does: the byte written reads back, every other address reads as before, and the canonical form
is kept (R56, R65). -/
theorem Memory.write_spec {m m' : Memory} {a : Nat} {b : Byte} (hwf : m.wf = true) (h : m.write a b = some m') :
    m'.read a = some b ∧ (∀ a', a' ≠ a → m'.read a' = m.read a') ∧ m'.wf = true := by
  simp only [Memory.write] at h
  split at h
  · cases h
  · next ha =>
    obtain rfl := Option.some.inj h
    by_cases hb : b = resetByte a
    · refine ⟨?_, fun a' hne => ?_, ?_⟩
      · simp [Memory.read, hb, cellAt_eraseCell hwf]; omega
      · simp [Memory.read, hb, cellAt_eraseCell hwf, hne]
      · simpa [Memory.wf, hb] using cellsWf_eraseCell hwf
    · refine ⟨?_, fun a' hne => ?_, ?_⟩
      · simp [Memory.read, hb, cellAt_insertCell]; omega
      · simp [Memory.read, hb, cellAt_insertCell, hne]
      · simpa [Memory.wf, hb] using cellsWf_insertCell hwf (Nat.zero_le _) (by omega) hb

/-- The reset memory is canonical and reads as the reset contents (R38). -/
theorem Memory.reset_wf : State.reset.mem.wf = true := rfl

theorem Memory.reset_read {a : Nat} (h : a ≤ 0xFFF) : State.reset.mem.read a = some (resetByte a) := by
  simp [Memory.read, Nat.not_lt.2 h, State.reset, cellAt]

/-! ## Storing a sequence of bytes -/

/-- Storing bytes keeps the canonical form, whatever the address. -/
theorem Memory.storeBytes_wf {m : Memory} (hwf : m.wf = true) (a : Nat) (bytes : List Byte) :
    (m.storeBytes a bytes).wf = true := by
  induction bytes generalizing m a with
  | nil => exact hwf
  | cons b bytes ih =>
    apply ih
    cases h : m.write a b with
    | none => simpa using hwf
    | some m' => simpa using (Memory.write_spec hwf h).2.2

/-- Everything a sequence of stores does when it lies in memory: the bytes read back from their addresses, every other
address reads as before (R153, R154, R90). -/
theorem Memory.storeBytes_read {m : Memory} (hwf : m.wf = true) {a : Nat} {bytes : List Byte}
    (h : a + bytes.length ≤ 0x1000) (a' : Nat) :
    (m.storeBytes a bytes).read a' =
      if a ≤ a' ∧ a' < a + bytes.length then bytes[a' - a]? else m.read a' := by
  induction bytes generalizing m a with
  | nil => simp only [Memory.storeBytes, List.length_nil]; rw [if_neg (by omega)]
  | cons b bytes ih =>
    simp only [List.length_cons] at h
    cases hw : m.write a b with
    | none => rw [Memory.write_eq_none_iff] at hw; omega
    | some m' =>
      obtain ⟨hself, hother, hwf'⟩ := Memory.write_spec hwf hw
      simp only [Memory.storeBytes, hw, Option.getD_some, List.length_cons]
      rw [ih hwf' (by omega)]
      by_cases h₁ : a' = a
      · subst h₁
        rw [if_neg (by omega), if_pos (by omega), hself]; simp
      · rw [hother a' h₁]
        by_cases h₂ : a ≤ a' ∧ a' < a + (bytes.length + 1)
        · rw [if_pos (by omega), if_pos h₂, show a' - a = (a' - (a + 1)) + 1 by omega]; simp
        · rw [if_neg (by omega), if_neg h₂]

/-- The form of `storeBytes_read` for an address outside the stored bytes, with no condition on where they lie. -/
theorem Memory.storeBytes_read_of_outside {m : Memory} (hwf : m.wf = true) {a : Nat} {bytes : List Byte} {a' : Nat}
    (h : a' < a ∨ a + bytes.length ≤ a') : (m.storeBytes a bytes).read a' = m.read a' := by
  induction bytes generalizing m a with
  | nil => rfl
  | cons b bytes ih =>
    simp only [List.length_cons] at h
    simp only [Memory.storeBytes]
    cases hw : m.write a b with
    | none => exact ih hwf (by omega)
    | some m' =>
      obtain ⟨_, hother, hwf'⟩ := Memory.write_spec hwf hw
      rw [Option.getD_some, ih hwf' (by omega), hother a' (by omega)]

end Sys2Proof.Machine
end

