-- ==== Sys2Proof/Laws/Ops.lean ====
section
/-! SUPPORT. One lemma per shared operation that says everything it can do: the range guard, the stack, skips, the
fetch, placing a word, and the operand forms. -/

namespace Sys2Proof.Machine

/-! ## The range guard (R156, R195) -/

theorem inRange_iff (base n : Nat) : inRange base n = true ↔ n = 0 ∨ base + n ≤ 0x1000 := by
  simp only [inRange, decide_eq_true_eq]; omega

theorem inRange_false_iff (base n : Nat) : inRange base n = false ↔ n ≠ 0 ∧ 0x1000 < base + n := by
  rw [← Bool.not_eq_true, inRange_iff]; omega

/-- The guard runs the body on a range inside memory and takes OutOfBoundsAccess on any other (R198). -/
theorem guardRange_cases (s : State) (base n : Nat) (body : State) :
    (inRange base n = true ∧ s.guardRange base n body = body) ∨
      (inRange base n = false ∧
        s.guardRange base n body = s.raise .outOfBoundsAccess (outOfBoundsInfo base)) := by
  unfold State.guardRange
  cases inRange base n <;> simp

/-! ## The stack (R27) -/

theorem push_of_lt {s : State} {depth : Nat} (h : s.stack.length < depth) (w : Word) :
    s.push w depth = some (s.setStack (w :: s.stack)) := by
  simp [State.push, h]

theorem push_of_full {s : State} {depth : Nat} (h : depth ≤ s.stack.length) (w : Word) : s.push w depth = none := by
  simp [State.push, Nat.not_lt.2 h]

theorem pop_of_cons {s : State} {w : Word} {rest : List Word} (h : s.stack = w :: rest) :
    s.pop = some (w, s.setStack rest) := by
  simp [State.pop, h]

theorem pop_of_nil {s : State} (h : s.stack = []) : s.pop = none := by
  simp [State.pop, h]

/-! ## Skips (R115 to R118) -/

theorem skipIf_eq (s : State) (c : Bool) : s.skipIf c = s.setPc (if c then s.pc + 2#16 else s.pc) := by
  cases c <;> rfl

/-! ## The fetch (R93) -/

/-- The fetch fails exactly when PC exceeds 0xFFE (R57). -/
theorem fetch_eq_none_iff (s : State) : s.fetch = none ↔ 0xFFE < s.pc.toNat := by
  unfold State.fetch
  by_cases h : s.pc.toNat ≤ 0xFFE
  · rw [Memory.read_eq_some_byteAt _ (by omega), Memory.read_eq_some_byteAt _ (by omega)]
    simp; omega
  · rw [(Memory.read_eq_none_iff _ (s.pc.toNat + 1)).2 (by omega)]
    cases s.mem.read s.pc.toNat <;> simp <;> omega

theorem fetch_eq_some {s : State} {high low : Byte} (hh : s.mem.read s.pc.toNat = some high)
    (hl : s.mem.read (s.pc.toNat + 1) = some low) : s.fetch = some (wordOfBytes high low) := by
  simp [State.fetch, hh, hl]

theorem pc_le_of_fetch {s : State} {op : Word} (h : s.fetch = some op) : s.pc.toNat ≤ 0xFFE := by
  by_contra hc
  rw [(fetch_eq_none_iff s).2 (by omega)] at h
  cases h

/-- After a fetch the advanced PC is the exact sum (R28). -/
theorem advance_pc_toNat {s : State} (h : s.pc.toNat ≤ 0xFFE) : (s.pc + 2#16).toNat = s.pc.toNat + 2 := by
  simp only [BitVec.toNat_add, BitVec.toNat_ofNat]; omega

/-- The word placed at PC is the word fetched there (R52). -/
theorem placeWord_fetch {s : State} (hwf : s.mem.wf = true) (hpc : s.pc.toNat ≤ 0xFFE) (w : Word) :
    (s.placeWord w).fetch = some w := by
  have hread := Memory.storeBytes_read hwf (a := s.pc.toNat) (bytes := [highByte w, lowByte w])
    (by simp only [List.length_cons, List.length_nil]; omega)
  rw [fetch_eq_some (s := s.placeWord w) (high := highByte w) (low := lowByte w)]
  · simp
  · simp [State.placeWord, hread]
  · simp [State.placeWord, hread]

/-! ## Operand forms -/

theorem zextAddr_toNat (nnn : Addr) : (zextAddr nnn).toNat = nnn.toNat := by
  have := nnn.isLt
  simp only [zextAddr, BitVec.toNat_setWidth]; omega

theorem jumpTarget_toNat (s : State) (nnn : Addr) :
    (s.jumpTarget nnn).toNat = (s.reg 0).toNat + nnn.toNat := by
  have := nnn.isLt
  have := (s.reg 0).isLt
  simp only [State.jumpTarget, BitVec.toNat_add, zextAddr_toNat, BitVec.toNat_setWidth]; omega

theorem indexPlus_toNat (i : Word) (b : Byte) : (indexPlus i b).toNat = (i.toNat + b.toNat) % 65536 := by
  have := b.isLt
  simp only [indexPlus, BitVec.toNat_add, BitVec.toNat_setWidth]; omega

theorem glyphAddr_toNat (b : Byte) : (glyphAddr b).toNat = 0x050 + 5 * b.toNat := by
  have := b.isLt
  simp only [glyphAddr, BitVec.toNat_ofNat]; omega

theorem outOfBoundsInfo_toNat {base : Nat} (h : base < 65536) : (outOfBoundsInfo base).toNat = max base 0x1000 := by
  simp only [outOfBoundsInfo, BitVec.toNat_ofNat]; omega

theorem keyIndex_val (b : Byte) : (keyIndex b).val = b.toNat % 16 := by
  simp [keyIndex]

theorem regsUpTo_length (s : State) (x : RegIdx) : (s.regsUpTo x).length = x.val + 1 := by
  simp [State.regsUpTo]

theorem regsUpTo_getElem? (s : State) {x r : RegIdx} (h : r ≤ x) : (s.regsUpTo x)[r.val]? = some (s.reg r) := by
  have := r.isLt
  have h' : r.val < x.val + 1 := Nat.lt_succ_of_le h
  simp [State.regsUpTo, State.reg, h']

theorem loadedRegs_getElem (s : State) (x : RegIdx) (base : Nat) (r : RegIdx) :
    (s.loadedRegs x base)[r] = if r ≤ x then s.mem.byteAt (base + r.val) else s.reg r := by
  simp [State.loadedRegs]

/-! ## The pressed key (R182) -/

theorem mem_pressedKeys (k : Keypad) (i : KeyIdx) : i ∈ pressedKeys k ↔ k[i] = true := by
  simp [pressedKeys]

/-- In a rising list the first member that satisfies a test is the least one that does. -/
theorem find?_le_of_pairwise {l : List KeyIdx} (hl : l.Pairwise (· < ·)) {test : KeyIdx → Bool} {i j : KeyIdx}
    (hj : l.find? test = some j) (hi : i ∈ l) (ht : test i = true) : j ≤ i := by
  induction l with
  | nil => cases hi
  | cons a l ih =>
    rw [List.pairwise_cons] at hl
    cases ha : test a with
    | true =>
      rw [List.find?_cons_of_pos ha, Option.some.injEq] at hj
      subst hj
      rcases List.mem_cons.1 hi with rfl | hi
      · exact Fin.le_refl _
      · exact Fin.le_of_lt (hl.1 i hi)
    | false =>
      rw [List.find?_cons_of_neg (by simp [ha])] at hj
      rcases List.mem_cons.1 hi with rfl | hi
      · rw [ha] at ht; cases ht
      · exact ih hl.2 hj hi

/-- The default KEY_PICK, when a key is pressed, is a pressed key and the smallest (R7, R182). -/
theorem keyPick_spec {k : Keypad} {i : KeyIdx} (hi : k[i] = true) :
    k[Config.keyPick k] = true ∧ Config.keyPick k ≤ i := by
  cases hf : (List.finRange 16).find? fun i => k[i] with
  | none => exact absurd hi (List.find?_eq_none.1 hf i (List.mem_finRange i))
  | some j =>
    obtain rfl : Config.keyPick k = j := congrArg (Option.getD · 0) hf
    exact ⟨by simpa using List.find?_some hf,
      find?_le_of_pairwise (by decide) hf (List.mem_finRange i) hi⟩

/-- No key is picked exactly when none is pressed (R182). -/
theorem pickKey_eq_none_iff (k : Keypad) (pick : Keypad → KeyIdx) : pickKey k pick = none ↔ ∀ i : KeyIdx, k[i] = false := by
  have h := mem_pressedKeys k
  unfold pickKey
  split
  · next he =>
    simp only [he, List.not_mem_nil, false_iff, Bool.not_eq_true] at h
    simpa using h
  · next i he =>
    have := (h i).1 (by simp [he])
    simp only [reduceCtorEq, false_iff, not_forall]
    exact ⟨i, by simp [this]⟩
  · next i rest _ he =>
    have := (h i).1 (by simp [he])
    simp only [reduceCtorEq, false_iff, not_forall]
    exact ⟨i, by simp [this]⟩

/-- A picked key is a pressed key (R182). -/
theorem pickKey_pressed {k : Keypad} {pick : Keypad → KeyIdx} {i : KeyIdx} (h : pickKey k pick = some i) : k[i] = true := by
  have hm := mem_pressedKeys k
  unfold pickKey at h
  split at h
  · cases h
  · next j he => cases h; exact (hm i).1 (by simp [he])
  · next j rest _ he =>
    split at h
    · next hk => cases h; exact hk
    · cases h; exact (hm i).1 (by simp [he])

/-- When KEY_PICK's answer is a pressed key, it is the key picked (R182). -/
theorem pickKey_of_pressed {k : Keypad} {pick : Keypad → KeyIdx} (h : k[pick k] = true) :
    pickKey k pick = some (pick k) := by
  have hm := (mem_pressedKeys k (pick k)).2 h
  unfold pickKey
  split
  · next he => rw [he] at hm; cases hm
  · next i he => rw [he, List.mem_singleton] at hm; rw [hm]
  · rw [if_pos h]

end Sys2Proof.Machine
end

