-- ==== Sys2Proof/Laws/Display.lean ====
section
/-! SUPPORT. The closed form of a sprite (`spriteCovers`) and the pixels that drawing it inverts are the same
(44_display.md R171). -/

namespace Sys2Proof.Machine

/-- The pixels of the closed form are those `Canvas.drawSprite` inverts. -/
theorem spriteCovers_eq_spriteOn (s : State) (x y : RegIdx) (n : Fin 16) (row col : Nat) :
    spriteCovers s x y n row col =
      spriteOn (fun r => s.mem.byteAt (s.i.toNat + r)) (spriteY (s.reg y)) (spriteX (s.reg x)) n.val row col := by
  rw [Bool.eq_iff_iff]
  unfold spriteCovers spriteOn rowCovers spriteY spriteX spriteBit
  simp only [Bool.and_eq_true, decide_eq_true_eq]
  constructor
  · rintro ⟨⟨⟨h1, h2⟩, h3⟩, h4⟩
    exact ⟨⟨h2.1, h2.2, h1.1⟩, ⟨h3.1, h3.2, h1.2⟩, h4⟩
  · rintro ⟨h1, h2, h4⟩
    exact ⟨⟨⟨⟨h1.2.2, h2.2.2⟩, h1.1, h1.2.1⟩, h2.1, h2.2.1⟩, h4⟩

/-- DXYN on a range inside memory, N = 0 included, draws and reports (R171). -/
theorem exec_drw_of_inRange {s : State} {x y : RegIdx} {n : Fin 16}
    (h : n.val = 0 ∨ s.i.toNat + n.val - 1 ≤ 0xFFF) :
    exec (.drwVxVyN x y n) s = .next ((s.setFb (s.drawn x y n).fb).setVF (s.drawn x y n).hit) := by
  have hr : inRange s.i.toNat n.val = true := by rw [inRange_iff]; omega
  simp [exec, execDrwVxVyN, State.guardRange, hr]

end Sys2Proof.Machine
end

