-- ==== Sys2Proof/Laws/PerInstr.lean ====
section
/-! SUPPORT. Per-instruction families. RoundTrip: the word of a well-formed instruction decodes to the instruction, every
operand at every value the encoding admits; one lemma per constructor. -/

namespace Sys2Proof.Laws.RoundTrip

/-- The word the encoder writes for a well-formed instruction is read back as that instruction. -/
def Statement (i : Instr) : Prop := i.wellFormed = true → decodeWord (encode i) = some i

theorem cls : Statement .cls := fun _ => rfl

theorem ret : Statement .ret := fun _ => rfl

theorem sys (nnn : Addr) : Statement (.sys nnn) := by
  intro h
  obtain ⟨hf, hn⟩ := formatNNN_fields (f := 0x0) (by omega) nnn
  simp only [Instr.wellFormed, Bool.and_eq_true, bne_iff_ne] at h
  have h0 : formatNNN 0x0 nnn ≠ 0x00E0#16 := fun e => h.1 (by rw [← hn, e]; rfl)
  have h1 : formatNNN 0x0 nnn ≠ 0x00EE#16 := fun e => h.2 (by rw [← hn, e]; rfl)
  simp [encode, decodeWord, hf, decodeGroup0, h0, h1, hn]

theorem jp (nnn : Addr) : Statement (.jp nnn) := by
  intro _
  obtain ⟨hf, hn⟩ := formatNNN_fields (f := 0x1) (by omega) nnn
  simp only [encode, decodeWord, hf, hn]

theorem call (nnn : Addr) : Statement (.call nnn) := by
  intro _
  obtain ⟨hf, hn⟩ := formatNNN_fields (f := 0x2) (by omega) nnn
  simp only [encode, decodeWord, hf, hn]

theorem ldINnn (nnn : Addr) : Statement (.ldINnn nnn) := by
  intro _
  obtain ⟨hf, hn⟩ := formatNNN_fields (f := 0xa) (by omega) nnn
  simp only [encode, decodeWord, hf, hn]

theorem jpV0Nnn (nnn : Addr) : Statement (.jpV0Nnn nnn) := by
  intro _
  obtain ⟨hf, hn⟩ := formatNNN_fields (f := 0xb) (by omega) nnn
  simp only [encode, decodeWord, hf, hn]

theorem seVxNn (x : RegIdx) (nn : Byte) : Statement (.seVxNn x nn) := by
  intro _
  obtain ⟨hf, hx, hn, -⟩ := formatXNN_fields (f := 0x3) (by omega) x nn
  simp only [encode, decodeWord, hf, hx, hn]

theorem sneVxNn (x : RegIdx) (nn : Byte) : Statement (.sneVxNn x nn) := by
  intro _
  obtain ⟨hf, hx, hn, -⟩ := formatXNN_fields (f := 0x4) (by omega) x nn
  simp only [encode, decodeWord, hf, hx, hn]

theorem ldVxNn (x : RegIdx) (nn : Byte) : Statement (.ldVxNn x nn) := by
  intro _
  obtain ⟨hf, hx, hn, -⟩ := formatXNN_fields (f := 0x6) (by omega) x nn
  simp only [encode, decodeWord, hf, hx, hn]

theorem addVxNn (x : RegIdx) (nn : Byte) : Statement (.addVxNn x nn) := by
  intro _
  obtain ⟨hf, hx, hn, -⟩ := formatXNN_fields (f := 0x7) (by omega) x nn
  simp only [encode, decodeWord, hf, hx, hn]

theorem rndVxNn (x : RegIdx) (nn : Byte) : Statement (.rndVxNn x nn) := by
  intro _
  obtain ⟨hf, hx, hn, -⟩ := formatXNN_fields (f := 0xc) (by omega) x nn
  simp only [encode, decodeWord, hf, hx, hn]

theorem seVxVy (x y : RegIdx) : Statement (.seVxVy x y) := by
  intro _
  obtain ⟨hf, hx, hy, -, hs⟩ := formatXYN_fields (f := 0x5) (by omega) x y 0x0
  simp [encode, decodeWord, hf, hx, hy, hs]

theorem sneVxVy (x y : RegIdx) : Statement (.sneVxVy x y) := by
  intro _
  obtain ⟨hf, hx, hy, -, hs⟩ := formatXYN_fields (f := 0x9) (by omega) x y 0x0
  simp [encode, decodeWord, hf, hx, hy, hs]

theorem ldVxVy (x y : RegIdx) : Statement (.ldVxVy x y) := by
  intro _
  obtain ⟨hf, hx, hy, -, hs⟩ := formatXYN_fields (f := 0x8) (by omega) x y 0x0
  simp [encode, decodeWord, decodeGroup8, hf, hx, hy, hs]

theorem orVxVy (x y : RegIdx) : Statement (.orVxVy x y) := by
  intro _
  obtain ⟨hf, hx, hy, -, hs⟩ := formatXYN_fields (f := 0x8) (by omega) x y 0x1
  simp [encode, decodeWord, decodeGroup8, hf, hx, hy, hs]

theorem andVxVy (x y : RegIdx) : Statement (.andVxVy x y) := by
  intro _
  obtain ⟨hf, hx, hy, -, hs⟩ := formatXYN_fields (f := 0x8) (by omega) x y 0x2
  simp [encode, decodeWord, decodeGroup8, hf, hx, hy, hs]

theorem xorVxVy (x y : RegIdx) : Statement (.xorVxVy x y) := by
  intro _
  obtain ⟨hf, hx, hy, -, hs⟩ := formatXYN_fields (f := 0x8) (by omega) x y 0x3
  simp [encode, decodeWord, decodeGroup8, hf, hx, hy, hs]

theorem addVxVy (x y : RegIdx) : Statement (.addVxVy x y) := by
  intro _
  obtain ⟨hf, hx, hy, -, hs⟩ := formatXYN_fields (f := 0x8) (by omega) x y 0x4
  simp [encode, decodeWord, decodeGroup8, hf, hx, hy, hs]

theorem subVxVy (x y : RegIdx) : Statement (.subVxVy x y) := by
  intro _
  obtain ⟨hf, hx, hy, -, hs⟩ := formatXYN_fields (f := 0x8) (by omega) x y 0x5
  simp [encode, decodeWord, decodeGroup8, hf, hx, hy, hs]

theorem shrVx (x y : RegIdx) : Statement (.shrVx x y) := by
  intro _
  obtain ⟨hf, hx, hy, -, hs⟩ := formatXYN_fields (f := 0x8) (by omega) x y 0x6
  simp [encode, decodeWord, decodeGroup8, hf, hx, hy, hs]

theorem subnVxVy (x y : RegIdx) : Statement (.subnVxVy x y) := by
  intro _
  obtain ⟨hf, hx, hy, -, hs⟩ := formatXYN_fields (f := 0x8) (by omega) x y 0x7
  simp [encode, decodeWord, decodeGroup8, hf, hx, hy, hs]

theorem shlVx (x y : RegIdx) : Statement (.shlVx x y) := by
  intro _
  obtain ⟨hf, hx, hy, -, hs⟩ := formatXYN_fields (f := 0x8) (by omega) x y 0xe
  simp [encode, decodeWord, decodeGroup8, hf, hx, hy, hs]

theorem drwVxVyN (x y : RegIdx) (n : Fin 16) : Statement (.drwVxVyN x y n) := by
  intro _
  obtain ⟨hf, hx, hy, hn, -⟩ := formatXYN_fields (f := 0xd) (by omega) x y n
  simp only [encode, decodeWord, hf, hx, hy, hn]

theorem skpVx (x : RegIdx) : Statement (.skpVx x) := by
  intro _
  obtain ⟨hf, hx, -, hs⟩ := formatXNN_fields (f := 0xe) (by omega) x 0x9e#8
  simp [encode, decodeWord, decodeGroupE, hf, hx, hs]

theorem sknpVx (x : RegIdx) : Statement (.sknpVx x) := by
  intro _
  obtain ⟨hf, hx, -, hs⟩ := formatXNN_fields (f := 0xe) (by omega) x 0xa1#8
  simp [encode, decodeWord, decodeGroupE, hf, hx, hs]

theorem ldVxDt (x : RegIdx) : Statement (.ldVxDt x) := by
  intro _
  obtain ⟨hf, hx, -, hs⟩ := formatXNN_fields (f := 0xf) (by omega) x 0x7#8
  simp [encode, decodeWord, decodeGroupF, hf, hx, hs]

theorem ldDtVx (x : RegIdx) : Statement (.ldDtVx x) := by
  intro _
  obtain ⟨hf, hx, -, hs⟩ := formatXNN_fields (f := 0xf) (by omega) x 0x15#8
  simp [encode, decodeWord, decodeGroupF, hf, hx, hs]

theorem ldStVx (x : RegIdx) : Statement (.ldStVx x) := by
  intro _
  obtain ⟨hf, hx, -, hs⟩ := formatXNN_fields (f := 0xf) (by omega) x 0x18#8
  simp [encode, decodeWord, decodeGroupF, hf, hx, hs]

theorem addIVx (x : RegIdx) : Statement (.addIVx x) := by
  intro _
  obtain ⟨hf, hx, -, hs⟩ := formatXNN_fields (f := 0xf) (by omega) x 0x1e#8
  simp [encode, decodeWord, decodeGroupF, hf, hx, hs]

theorem ldVxK (x : RegIdx) : Statement (.ldVxK x) := by
  intro _
  obtain ⟨hf, hx, -, hs⟩ := formatXNN_fields (f := 0xf) (by omega) x 0xa#8
  simp [encode, decodeWord, decodeGroupF, hf, hx, hs]

theorem ldFVx (x : RegIdx) : Statement (.ldFVx x) := by
  intro _
  obtain ⟨hf, hx, -, hs⟩ := formatXNN_fields (f := 0xf) (by omega) x 0x29#8
  simp [encode, decodeWord, decodeGroupF, hf, hx, hs]

theorem ldBVx (x : RegIdx) : Statement (.ldBVx x) := by
  intro _
  obtain ⟨hf, hx, -, hs⟩ := formatXNN_fields (f := 0xf) (by omega) x 0x33#8
  simp [encode, decodeWord, decodeGroupF, hf, hx, hs]

theorem stV0Vx (x : RegIdx) : Statement (.stV0Vx x) := by
  intro _
  obtain ⟨hf, hx, -, hs⟩ := formatXNN_fields (f := 0xf) (by omega) x 0x55#8
  simp [encode, decodeWord, decodeGroupF, hf, hx, hs]

theorem ldV0Vx (x : RegIdx) : Statement (.ldV0Vx x) := by
  intro _
  obtain ⟨hf, hx, -, hs⟩ := formatXNN_fields (f := 0xf) (by omega) x 0x65#8
  simp [encode, decodeWord, decodeGroupF, hf, hx, hs]

end Sys2Proof.Laws.RoundTrip
end

