-- ==== Sys2Proof/Laws/Step.lean ====
section
/-! SUPPORT. Everything a cycle can do, said once for every execute part (40_cycle_and_host_ops.md R92;
60_exceptions.md R200), then for `step` and for `stepWith`; and the default parameters give `exec`, `step` and
`State.reset` (00_scope.md R7; log 32). -/

namespace Sys2Proof.Machine

/-! ## A cycle around any execute part -/

variable {run : Instr → State → Host.Outcome State Fault Refusal} {s t : State}

/-- The cycle of a halted machine (R96). -/
theorem fetchExecute_of_halted (h : s.halted = true) : fetchExecute run s = .fault (.halted s.fault) := by
  simp [fetchExecute, h]

/-- The cycle whose fetch is out of bounds (R57). -/
theorem fetchExecute_of_fetch_none (hr : s.Running) (h : s.fetch = none) :
    fetchExecute run s = .next (s.raise .outOfBoundsAccess s.pc) := by
  simp [fetchExecute, hr, h]

/-- The cycle whose word is no instruction (R95). -/
theorem fetchExecute_of_decode_none (hr : s.Running) {op : Word} (h : s.fetch = some op)
    (hd : decodeWord op = none) : fetchExecute run s = .next s.advance := by
  simp [fetchExecute, hr, h, hd]

/-- The cycle that runs an instruction (R92). -/
theorem fetchExecute_of_decode_some (hr : s.Running) {op : Word} (h : s.fetch = some op) {i : Instr}
    (hd : decodeWord op = some i) : fetchExecute run s = run i s.advance := by
  simp [fetchExecute, hr, h, hd]

/-- If a cycle answers a next state, the machine was running and one of three things happened: the fetch was out of
bounds, the word was no instruction, or the execute part answered that state. -/
theorem fetchExecute_cases (h : fetchExecute run s = .next t) :
    s.Running ∧
      ((s.fetch = none ∧ t = s.raise .outOfBoundsAccess s.pc) ∨
        (∃ op, s.fetch = some op ∧ decodeWord op = none ∧ t = s.advance) ∨
        (∃ op i, s.fetch = some op ∧ decodeWord op = some i ∧ run i s.advance = .next t)) := by
  cases hr : s.halted with
  | true => rw [fetchExecute_of_halted hr] at h; cases h
  | false =>
    refine ⟨hr, ?_⟩
    cases hf : s.fetch with
    | none => rw [fetchExecute_of_fetch_none hr hf] at h; cases h; exact .inl ⟨rfl, rfl⟩
    | some op =>
      cases hd : decodeWord op with
      | none =>
        rw [fetchExecute_of_decode_none hr hf hd] at h
        cases h
        exact .inr (.inl ⟨op, rfl, hd, rfl⟩)
      | some i =>
        rw [fetchExecute_of_decode_some hr hf hd] at h
        exact .inr (.inr ⟨op, i, rfl, hd, h⟩)

/-! ## The step -/

theorem step_of_halted (h : s.halted = true) : step s = .fault (.halted s.fault) := fetchExecute_of_halted h

theorem step_of_fetch_none (hr : s.Running) (h : s.fetch = none) :
    step s = .next (s.raise .outOfBoundsAccess s.pc) := fetchExecute_of_fetch_none hr h

theorem step_of_decode_none (hr : s.Running) {op : Word} (h : s.fetch = some op)
    (hd : decodeWord op = none) : step s = .next s.advance := fetchExecute_of_decode_none hr h hd

theorem step_of_decode_some (hr : s.Running) {op : Word} (h : s.fetch = some op) {i : Instr}
    (hd : decodeWord op = some i) : step s = exec i s.advance := fetchExecute_of_decode_some hr h hd

/-- `fetchExecute_cases` of `step`. -/
theorem step_cases (h : step s = .next t) :
    s.Running ∧
      ((s.fetch = none ∧ t = s.raise .outOfBoundsAccess s.pc) ∨
        (∃ op, s.fetch = some op ∧ decodeWord op = none ∧ t = s.advance) ∨
        (∃ op i, s.fetch = some op ∧ decodeWord op = some i ∧ exec i s.advance = .next t)) := fetchExecute_cases h

/-- The word placed by `withFetchWord` is the one the next step runs (log 22). -/
theorem step_withFetchWord (hr : s.Running) (hwf : s.mem.wf = true) (hpc : s.pc.toNat ≤ 0xFFE)
    {nbits w : Nat} {i : Instr} (hd : decodeWord (BitVec.ofNat 16 (w % 2 ^ nbits)) = some i) :
    step (s.withFetchWord nbits w) = exec i (s.withFetchWord nbits w).advance :=
  step_of_decode_some (s := s.withFetchWord nbits w) hr (placeWord_fetch hwf hpc _) hd

/-! ## The default parameters -/

/-- At the default parameters the execute part is `exec`. -/
@[simp] theorem execWith_default : execWith {} = exec := by
  funext i s
  cases i <;> rfl

/-- At the default parameters the step is `step`. -/
@[simp] theorem stepWith_default : stepWith {} = step := by
  funext s
  rw [stepWith, execWith_default, step]

/-- The default FONT stores nothing: it is what unlisted addresses read as. -/
@[simp] theorem resetWith_default : resetWith {} = State.reset := by decide

/-- No parameter bears on any other instruction. -/
theorem execWith_of_no_parameter {p : Params} {i : Instr} (hc : ∀ n, i ≠ .call n) (hk : ∀ x, i ≠ .ldVxK x)
    (hr : ∀ x nn, i ≠ .rndVxNn x nn) : execWith p i s = exec i s := by
  cases i with
  | call n => exact absurd rfl (hc n)
  | ldVxK x => exact absurd rfl (hk x)
  | rndVxNn x nn => exact absurd rfl (hr x nn)
  | _ => rfl

end Sys2Proof.Machine
end

