-- ==== Sys2Proof/Tests/Slice0.lean ====
section
/-! SUPPORT. Tests: the check of WellFormed, words written out from the spec's encodings, the vectors of
95_test_vectors.md (at most two a instruction, one step each), and the witnesses that the hypotheses of the
obligations can be met. Expected values are the spec's; the id of the vector stands in each comment. -/

namespace Sys2Proof.Tests

open Sys2Proof.Machine

/-! ## Well-formed instructions -/

/-- The one check of WellFormed: 0x00E0 and 0x00EE are CLS and RET, never SYS (R74, R111). -/
theorem test_wellFormed_refuses_sys_of_cls_and_ret :
    (Instr.sys 0x0E0#12).wellFormed = false ∧ (Instr.sys 0x0EE#12).wellFormed = false := by decide

theorem test_wellFormed_accepts_neighbours :
    (Instr.sys 0x1E0#12).wellFormed = true ∧ (Instr.sys 0xFEE#12).wellFormed = true ∧
      (Instr.sys 0x000#12).wellFormed = true ∧ Instr.cls.wellFormed = true := by decide

/-! ## Decoding words written out from the encodings of R73 -/

theorem test_decode_control_flow :
    decodeWord 0x00EE = some .ret ∧ decodeWord 0x0FEE = some (.sys 0xFEE#12) ∧
      decodeWord 0x1204 = some (.jp 0x204#12) ∧ decodeWord 0x2ABC = some (.call 0xABC#12) ∧
      decodeWord 0xB300 = some (.jpV0Nnn 0x300#12) ∧ decodeWord 0x332A = some (.seVxNn 3 0x2A#8) ∧
      decodeWord 0x4E0F = some (.sneVxNn 14 0x0F#8) ∧ decodeWord 0x5120 = some (.seVxVy 1 2) ∧
      decodeWord 0x9AB0 = some (.sneVxVy 10 11) := by decide

theorem test_decode_load_and_alu :
    decodeWord 0x6A2F = some (.ldVxNn 10 0x2F#8) ∧ decodeWord 0x70FF = some (.addVxNn 0 0xFF#8) ∧
      decodeWord 0x8120 = some (.ldVxVy 1 2) ∧ decodeWord 0x8121 = some (.orVxVy 1 2) ∧
      decodeWord 0x8122 = some (.andVxVy 1 2) ∧ decodeWord 0x8123 = some (.xorVxVy 1 2) ∧
      decodeWord 0x8124 = some (.addVxVy 1 2) ∧ decodeWord 0x8125 = some (.subVxVy 1 2) ∧
      decodeWord 0x8106 = some (.shrVx 1 0) ∧ decodeWord 0x8127 = some (.subnVxVy 1 2) ∧
      decodeWord 0x8F0E = some (.shlVx 15 0) ∧ decodeWord 0xC30F = some (.rndVxNn 3 0x0F#8) := by decide

theorem test_decode_index_memory_display :
    decodeWord 0xA300 = some (.ldINnn 0x300#12) ∧ decodeWord 0xF21E = some (.addIVx 2) ∧
      decodeWord 0xF229 = some (.ldFVx 2) ∧ decodeWord 0xF233 = some (.ldBVx 2) ∧
      decodeWord 0xFF55 = some (.stV0Vx 15) ∧ decodeWord 0xF265 = some (.ldV0Vx 2) ∧
      decodeWord 0x00E0 = some .cls ∧ decodeWord 0xD123 = some (.drwVxVyN 1 2 3) := by decide

theorem test_decode_keypad_timers :
    decodeWord 0xE59E = some (.skpVx 5) ∧ decodeWord 0xE5A1 = some (.sknpVx 5) ∧
      decodeWord 0xF30A = some (.ldVxK 3) ∧ decodeWord 0xFB07 = some (.ldVxDt 11) ∧
      decodeWord 0xFA15 = some (.ldDtVx 10) ∧ decodeWord 0xF418 = some (.ldStVx 4) := by decide

/-- T-DE-4 to T-DE-10: words that name no instruction. -/
theorem test_decode_reserved :
    [0x5121#16, 0x912F#16, 0x8128#16, 0x812F#16, 0x8129#16, 0x812D#16, 0xE19F#16, 0xE000#16, 0xE0A2#16,
      0xF000#16, 0xF075#16, 0xF085#16, 0xF030#16, 0xF1FF#16].all (fun w => (decodeWord w).isNone) = true := by
  decide

/-- S12: the first byte is the high one. -/
theorem test_decode_bytes_are_big_endian :
    decode [0x12#8, 0x34#8, 0x56#8] = .ok (.jp 0x234#12, [0x56#8]) ∧ decode [0x12#8] = .error .truncated ∧
      decode [0x51#8, 0x21#8] = .error (.noInstruction 0x5121#16) := by decide

theorem test_decodeTableWord :
    decodeTableWord 16 0xD123 = some (.drwVxVyN 1 2 3) ∧ decodeTableWord 16 0xF0FF = none := by decide

/-! ## One step on a small state -/

/-- The reset state with two registers written. -/
def withRegs (a : RegIdx) (x : Byte) (b : RegIdx) (y : Byte) : State := (State.reset.setReg a x).setReg b y

/-- The next state of the step that runs the word `w`, placed at PC. -/
def run (w : Nat) (s : State) : Option State := nextState? (step (s.withFetchWord 16 w))

/-- The reset state with a byte at 0x300 and I pointing at it. -/
def withByteAtI (b : Byte) : State := (State.reset.setMem (State.reset.mem.storeBytes 0x300 [b])).setI 0x300#16

/-- The reset state with one pixel on. -/
def withPixel (y x : Nat) (s : State) : State := s.setFb (flipPixel s.fb y x)

/-- T-DE-1, T-DE-3. -/
theorem test_sys : run 0x0000 State.reset = some (State.reset.setPc 0x202#16) ∧
    (run 0x0FEE State.reset).map (fun t => (t.pc, t.halted)) = some (0x202#16, false) := by decide

/-- T-DE-5: a DecodeError word changes PC alone and is reported. -/
theorem test_decodeError_step :
    (run 0x912F (withRegs 1 7#8 2 8#8)).map (fun t => (t.pc, t.halted)) = some (0x202#16, false) ∧
      stepReport ((withRegs 1 7#8 2 8#8).withFetchWord 16 0x912F) = .decodeError 0x912F#16 := by decide

/-- T-DE-13, T-DE-14: the fetch at the end of memory. -/
theorem test_fetch_bound :
    (nextState? (step (State.reset.setPc 0xFFF#16))).map (fun t => (t.pc, t.fault)) =
        some (0xFFF#16, some ⟨.outOfBoundsAccess, 0xFFF#16⟩) ∧
      (run 0x1200 (State.reset.setPc 0xFFE#16)).map (·.pc) = some 0x200#16 := by decide

/-- T-CF-1, T-CF-3. -/
theorem test_jp : (run 0x1204 State.reset).map (·.pc) = some 0x204#16 ∧
    (run 0x1FFF State.reset).map (·.pc) = some 0xFFF#16 := by decide

/-- T-CF-4. -/
theorem test_call : (run 0x2300 State.reset).map (fun t => (t.stack, t.pc)) = some ([0x202#16], 0x300#16) := by decide

/-- T-CF-9, step 17. -/
theorem test_call_overflow :
    (run 0x2200 (State.reset.setStack (List.replicate 16 0x202#16))).map (fun t => (t.stack.length, t.pc, t.fault)) =
      some (16, 0x202#16, some ⟨.stackOverflow, 0x202#16⟩) := by decide

/-- T-CF-5, T-CF-6. -/
theorem test_ret :
    (run 0x00EE (State.reset.setStack [0x206#16])).map (fun t => (t.stack, t.pc)) = some ([], 0x206#16) ∧
      (run 0x00EE State.reset).map (fun t => (t.pc, t.halted, t.fault)) =
        some (0x202#16, true, some ⟨.stackUnderflow, 0#16⟩) := by decide

/-- T-CF-8: no mask on the sum. -/
theorem test_jpV0 : (run 0xBFFF (withRegs 0 0xFF#8 1 0#8)).map (·.pc) = some 0x10FE#16 := by decide

/-- T-CF-10 to T-CF-13. -/
theorem test_skip_immediate :
    (run 0x332A (withRegs 3 0x2A#8 0 0#8)).map (·.pc) = some 0x204#16 ∧
      (run 0x332A (withRegs 3 0x2B#8 0 0#8)).map (·.pc) = some 0x202#16 ∧
      (run 0x432A (withRegs 3 0x2A#8 0 0#8)).map (·.pc) = some 0x202#16 ∧
      (run 0x432A (withRegs 3 0x2B#8 0 0#8)).map (·.pc) = some 0x204#16 := by decide

/-- T-CF-14, T-CF-15, T-CF-17, T-CF-18. -/
theorem test_skip_register :
    (run 0x5120 (withRegs 1 7#8 2 7#8)).map (·.pc) = some 0x204#16 ∧
      (run 0x5120 (withRegs 1 7#8 2 8#8)).map (·.pc) = some 0x202#16 ∧
      (run 0x9120 (withRegs 1 7#8 2 8#8)).map (·.pc) = some 0x204#16 ∧
      (run 0x9440 (withRegs 4 7#8 2 8#8)).map (·.pc) = some 0x202#16 := by decide

/-- T-AL-2, T-AL-3. -/
theorem test_immediate_load_add :
    (run 0x6F07 State.reset).map (·.reg 15) = some 0x07#8 ∧
      (run 0x7002 (withRegs 0 0xFF#8 15 0#8)).map (fun t => (t.reg 0, t.reg 15)) = some (0x01#8, 0x00#8) := by decide

/-- T-AL-5 to T-AL-8. -/
theorem test_move_and_logic :
    (run 0x8120 (withRegs 1 0x00#8 2 0x5C#8)).map (·.reg 1) = some 0x5C#8 ∧
      (run 0x8121 ((withRegs 1 0xF0#8 2 0x0F#8).setReg 15 1#8)).map (fun t => (t.reg 1, t.reg 15)) =
        some (0xFF#8, 0x01#8) ∧
      (run 0x8122 (withRegs 1 0xF3#8 2 0x3C#8)).map (·.reg 1) = some 0x30#8 ∧
      (run 0x8123 (withRegs 1 0xF3#8 2 0x3C#8)).map (·.reg 1) = some 0xCF#8 := by decide

/-- T-AL-12, T-AL-14: the sum 256 carries; with X = 15 the carry stays. -/
theorem test_add :
    (run 0x8124 (withRegs 1 0xFF#8 2 0x01#8)).map (fun t => (t.reg 1, t.reg 15)) = some (0x00#8, 0x01#8) ∧
      (run 0x8F24 (withRegs 15 0xF0#8 2 0x20#8)).map (·.reg 15) = some 0x01#8 := by decide

/-- T-AL-17, T-AL-19: the comparison is strict. -/
theorem test_sub :
    (run 0x8125 (withRegs 1 0x10#8 2 0x20#8)).map (fun t => (t.reg 1, t.reg 15)) = some (0xF0#8, 0x00#8) ∧
      (run 0x8125 (withRegs 1 0x33#8 2 0x33#8)).map (fun t => (t.reg 1, t.reg 15)) = some (0x00#8, 0x00#8) := by
  decide

/-- T-AL-24, T-AL-26: Y is ignored; the flag is written last. -/
theorem test_shr :
    (run 0x8126 (withRegs 1 0x05#8 2 0xFE#8)).map (fun t => (t.reg 1, t.reg 15)) = some (0x02#8, 0x01#8) ∧
      (run 0x8F06 (withRegs 15 0x02#8 0 0x00#8)).map (·.reg 15) = some 0x00#8 := by decide

/-- T-AL-27, T-AL-28. -/
theorem test_subn :
    (run 0x8127 (withRegs 1 0x10#8 2 0x20#8)).map (fun t => (t.reg 1, t.reg 15)) = some (0x10#8, 0x01#8) ∧
      (run 0x8127 (withRegs 1 0x20#8 2 0x10#8)).map (fun t => (t.reg 1, t.reg 15)) = some (0xF0#8, 0x00#8) := by
  decide

/-- T-AL-30, T-AL-31. -/
theorem test_shl :
    (run 0x810E (withRegs 1 0x81#8 2 0x00#8)).map (fun t => (t.reg 1, t.reg 15)) = some (0x02#8, 0x01#8) ∧
      (run 0x810E (withRegs 1 0x40#8 15 0x01#8)).map (fun t => (t.reg 1, t.reg 15)) = some (0x80#8, 0x00#8) := by
  decide

/-- T-AL-35: a mask of 0 gives 0 whatever the random byte. -/
theorem test_rnd_mask_zero (t : State) (h : run 0xC300 State.reset = some t) : t.reg 3 = 0x00#8 := by
  have h' : run 0xC300 State.reset =
      some (((State.reset.withFetchWord 16 0xC300).advance.setReg 3 (Config.rand 0 &&& 0x00#8)).countDraw) := rfl
  rw [h'] at h
  cases h
  simp

/-- T-IM-2, T-IM-5. -/
theorem test_index :
    (run 0xAFFF State.reset).map (·.i) = some 0xFFF#16 ∧
      (run 0xF21E ((withRegs 2 0x02#8 15 0#8).setI 0xFFFF#16)).map (fun t => (t.i, t.reg 15)) =
        some (0x0001#16, 0x00#8) := by decide

/-- S7, T-IM-9. -/
theorem test_glyph :
    (run 0xFA29 (withRegs 10 0x0A#8 0 0#8)).map (·.i) = some 0x0082#16 ∧
      (run 0xF229 (withRegs 2 0xFF#8 0 0#8)).map (·.i) = some 0x054B#16 := by decide

/-- S6, T-IM-14. -/
theorem test_bcd :
    (run 0xF233 ((withRegs 2 156#8 0 0#8).setI 0x300#16)).map
        (fun t => (t.mem.read 0x300, t.mem.read 0x301, t.mem.read 0x302)) = some (some 1#8, some 5#8, some 6#8) ∧
      (run 0xF233 ((withRegs 2 7#8 0 0#8).setI 0xFFE#16)).map
        (fun t => (t.mem.read 0xFFE, t.mem.read 0xFFF, t.pc, t.fault)) =
        some (some 0#8, some 0#8, 0x202#16, some ⟨.outOfBoundsAccess, 0x1000#16⟩) := by decide

/-- T-IM-15, T-IM-17. -/
theorem test_store_registers :
    (run 0xF255 (((withRegs 0 1#8 1 2#8).setReg 2 3#8).setI 0x300#16)).map
        (fun t => (t.mem.read 0x300, t.mem.read 0x302, t.mem.read 0x303, t.i)) =
        some (some 1#8, some 3#8, some 0#8, 0x300#16) ∧
      (run 0xF155 ((withRegs 0 0xAA#8 1 2#8).setI 0xFFF#16)).map (fun t => (t.mem.read 0xFFF, t.halted)) =
        some (some 0#8, true) := by decide

/-- T-IM-23, T-IM-21. -/
theorem test_load_registers :
    (run 0xF465 (State.reset.setI 0x050#16)).map (fun t => (t.reg 0, t.reg 1, t.reg 4, t.reg 5)) =
        some (0xF0#8, 0x90#8, 0xF0#8, 0x00#8) ∧
      (run 0xF065 ((withRegs 0 0x77#8 1 0#8).setI 0x1234#16)).map (fun t => (t.reg 0, t.fault)) =
        some (0x77#8, some ⟨.outOfBoundsAccess, 0x1234#16⟩) := by decide

/-- T-DP-1. -/
theorem test_cls :
    (run 0x00E0 (withPixel 3 4 (withRegs 15 1#8 0 0#8))).map (fun t => (pixel t.fb 3 4, t.reg 15)) =
      some (false, 0x01#8) := by decide

/-- T-DP-9: clipped, not wrapped. -/
theorem test_drw_clips :
    (run 0xD121 (withPixel 0 0 ((withByteAtI 0xFF#8).setReg 1 60#8))).map
        (fun t => (pixel t.fb 0 60, pixel t.fb 0 63, pixel t.fb 0 0, pixel t.fb 0 1, t.reg 15)) =
      some (true, true, true, false, 0x00#8) := by decide

/-- T-DP-7 and T-DP-10: a collision, and N = 0. -/
theorem test_drw_collision :
    (run 0xD121 (withPixel 0 0 (withByteAtI 0x80#8))).map (fun t => (pixel t.fb 0 0, t.reg 15)) =
        some (false, 0x01#8) ∧
      (run 0xD120 ((withRegs 15 1#8 0 0#8).setI 0xFFFF#16)).map (fun t => (t.halted, t.reg 15)) =
        some (false, 0x00#8) := by decide

/-- T-KT-5 and T-KT-1, T-KT-4. -/
theorem test_key_skips :
    (run 0xE59E ((withRegs 5 0x1A#8 0 0#8).setKey 0xA true)).map (·.pc) = some 0x204#16 ∧
      (run 0xE5A1 ((withRegs 5 7#8 0 0#8).setKey 7 true)).map (·.pc) = some 0x202#16 := by decide

/-- T-KT-6, T-KT-8. -/
theorem test_wait_key :
    (run 0xF30A State.reset).map (·.pc) = some 0x200#16 ∧
      (run 0xF30A (State.reset.setKey 0xB true)).map (fun t => (t.reg 3, t.pc)) = some (0x0B#8, 0x202#16) := by decide

theorem test_timers :
    (run 0xFB07 (State.reset.setDt 9#8)).map (·.reg 11) = some 9#8 ∧
      (run 0xFA15 (withRegs 10 3#8 0 0#8)).map (·.dt) = some 3#8 ∧
      (run 0xF418 (withRegs 4 5#8 0 0#8)).map (fun t => (t.st, t.soundActive)) = some (5#8, true) := by decide

/-- T-KT-14, T-KT-16. -/
theorem test_tick :
    (((State.reset.setSt 3#8).tick).dt, ((State.reset.setSt 3#8).tick).st) = (0#8, 2#8) ∧
      (((State.reset.setDt 2#8).raise .stackUnderflow 0#16).tick).dt = 1#8 := by decide

/-- T-LR-2. -/
theorem test_load :
    ((State.reset.load [0x12#8, 0x00#8]).1.mem.read 0x200, (State.reset.load [0x12#8, 0x00#8]).1.mem.read 0x201,
      (State.reset.load [0x12#8, 0x00#8]).1.pc) = (some 0x12#8, some 0x00#8, 0x200#16) := by decide

/-- T-LR-5: the font's edges. -/
theorem test_reset_memory :
    (State.reset.mem.read 0x04F, State.reset.mem.read 0x050, State.reset.mem.read 0x09F, State.reset.mem.read 0x0A0,
      State.reset.mem.read 0xFFF, State.reset.mem.read 0x1000) =
      (some 0x00#8, some 0xF0#8, some 0x80#8, some 0x00#8, some 0x00#8, none) := by decide

/-- R197: the codes of the fatal conditions, and (0, 0) for none. -/
theorem test_fault_codes :
    State.reset.faultCode = (0, 0#16) ∧
      (State.reset.raise .stackUnderflow 0#16).faultCode = (3, 0#16) ∧
      (State.reset.raise .stackOverflow 0x202#16).faultCode = (4, 0x202#16) ∧
      (State.reset.raise .outOfBoundsAccess 0x1000#16).faultCode = (5, 0x1000#16) := by decide

/-! ## Other values of the parameters of R7 -/

/-- The state of R20 after `step(RAND)` runs the word `w`. -/
def runArch (p : Params) (rand : Byte) (w : Nat) (s : State) : Option ArchState :=
  match (s.withFetchWord 16 w).toArchState.step p rand with
  | .next a => some a
  | .fault _ => none
  | .refused _ => none

/-- T-AL-34, T-AL-36: RAND = 0xB7. -/
theorem test_rnd_with_given_byte :
    (runArch {} 0xB7#8 0xC30F State.reset).map (·.v[3]) = some 0x07#8 ∧
      (runArch {} 0xB7#8 0xC3FF State.reset).map (·.v[3]) = some 0xB7#8 := by decide

/-- T-KT-9: KEY[4] = KEY[9] = 1, and the default takes 4. -/
theorem test_wait_key_takes_the_smallest :
    (run 0xF30A ((State.reset.setKey 4 true).setKey 9 true)).map (fun t => (t.reg 3, t.pc)) =
      some (0x04#8, 0x202#16) := by decide

/-- T-KT-9: KEY[4] = KEY[9] = 1, and either key may be taken at another KEY_PICK. -/
theorem test_wait_key_with_given_pick :
    (runArch { keyPick := fun _ => 4 } 0#8 0xF30A ((State.reset.setKey 4 true).setKey 9 true)).map (·.v[3]) =
        some 0x04#8 ∧
      (runArch { keyPick := fun _ => 9 } 0#8 0xF30A ((State.reset.setKey 4 true).setKey 9 true)).map (·.v[3]) =
        some 0x09#8 := by decide

/-- R27, R194: the bound is the parameter. -/
theorem test_call_with_given_depth :
    (runArch { stackDepth := 1 } 0#8 0x2300 (State.reset.setStack [0x206#16])).map (·.fault) =
        some (some ⟨.stackOverflow, 0x202#16⟩) ∧
      (runArch { stackDepth := 17 } 0#8 0x2300 (State.reset.setStack (List.replicate 16 0x206#16))).map
        (fun t => (t.stack.length, t.fault)) = some (17, none) := by decide

/-- R31, R38: the font range holds the parameter FONT. -/
theorem test_reset_with_given_font :
    ((resetWith { font := Vector.replicate 80 0xAA#8 }).mem.read 0x04F,
      (resetWith { font := Vector.replicate 80 0xAA#8 }).mem.read 0x050,
      (resetWith { font := Vector.replicate 80 0xAA#8 }).mem.read 0x09F,
      (resetWith { font := Vector.replicate 80 0xAA#8 }).mem.read 0x0A0) =
      (some 0x00#8, some 0xAA#8, some 0xAA#8, some 0x00#8) := by decide

/-- The word placed by `withFetchWord` runs as the first instruction after reset. -/
theorem test_withFetchWord :
    (nextState? (step (State.reset.withFetchWord 16 0x6A2F))).map (fun t => (t.reg 10, t.pc)) =
      some (0x2F#8, 0x202#16) := by decide

/-! ## Witnesses: the hypotheses of the obligations can be met -/

theorem witness_CanonicalMemoriesThatReadAlikeAreEqual :
    Memory.wf ⟨[(0x300, 0x01#8)]⟩ = true ∧ Memory.wf ⟨[(0x050, 0xF0#8)]⟩ = false ∧
      Memory.wf ⟨[(0x1000, 0x01#8)]⟩ = false ∧
      ∀ a, Memory.read ⟨[(0x300, 0x01#8)]⟩ a = Memory.read ⟨[(0x300, 0x01#8)]⟩ a :=
  ⟨by decide, by decide, by decide, fun _ => rfl⟩

theorem witness_ResetGivesTheTableOfResetValues :
    (0x050 ≤ 0x050 ∧ 0x050 ≤ 0x09F) ∧ (0x050 ≤ 0x09F ∧ 0x09F ≤ 0x09F) ∧
      (0x04F ≤ 0xFFF ∧ (0x04F < 0x050 ∨ 0x09F < 0x04F)) ∧ (0x0A0 ≤ 0xFFF ∧ (0x0A0 < 0x050 ∨ 0x09F < 0x0A0)) ∧
      (0xFFF ≤ 0xFFF ∧ (0xFFF < 0x050 ∨ 0x09F < 0xFFF)) := by decide

theorem witness_DecodeOfEncodedBytesIsTheInstruction :
    (Instr.drwVxVyN 15 0 15).wellFormed = true ∧ (Instr.sys 0x0EF#12).wellFormed = true := by decide

theorem witness_EncodeOfDecodedWordIsTheWord : decodeWord 0xFF65 = some (.ldV0Vx 15) := by decide

/-- A running state with the word at PC. -/
def ready (w : Nat) : State := State.reset.withFetchWord 16 w

theorem witness_StepRunsTheDecodedInstruction :
    (ready 0x8124).Running ∧ (ready 0x8124).mem.read (ready 0x8124).pc.toNat = some 0x81#8 ∧
      (ready 0x8124).mem.read ((ready 0x8124).pc.toNat + 1) = some 0x24#8 ∧
      decode [0x81#8, 0x24#8] = .ok (.addVxVy 1 2, []) := by decide

theorem witness_StepRunsTheDecodedInstruction_at_the_last_address :
    ((State.reset.setPc 0xFFE#16).withFetchWord 16 0x6001).Running ∧
      ((State.reset.setPc 0xFFE#16).withFetchWord 16 0x6001).mem.read 0xFFE = some 0x60#8 ∧
      ((State.reset.setPc 0xFFE#16).withFetchWord 16 0x6001).mem.read 0xFFF = some 0x01#8 ∧
      decode [0x60#8, 0x01#8] = .ok (.ldVxNn 0 0x01#8, []) := by decide

theorem witness_DecodeErrorWordOnlyAdvancesPc :
    (ready 0x5121).Running ∧ (ready 0x5121).mem.read (ready 0x5121).pc.toNat = some 0x51#8 ∧
      (ready 0x5121).mem.read ((ready 0x5121).pc.toNat + 1) = some 0x21#8 ∧
      decodeWord (wordOfBytes 0x51#8 0x21#8) = none := by decide

theorem witness_FetchBeyondMemoryHalts :
    (State.reset.setPc 0xFFF#16).Running ∧ 0xFFE < (State.reset.setPc 0xFFF#16).pc.toNat ∧
      (State.reset.setPc 0xFFFF#16).Running ∧ 0xFFE < (State.reset.setPc 0xFFFF#16).pc.toNat := by decide

/-- A halted state. -/
def stopped : State := State.reset.raise .stackUnderflow 0#16

theorem witness_HaltedStepChangesNothing : stopped.halted = true := by decide

theorem witness_RunningStepAlwaysAnswersANextState : State.reset.Running := by decide

theorem witness_StepReport_halting :
    (ready 0x00EE).Running ∧ ∃ t, stepWith {} (ready 0x00EE) = .next t ∧ t.halted = true := ⟨by decide, _, rfl, rfl⟩

theorem witness_StepReport_no_instruction :
    (ready 0x5121).Running ∧ (ready 0x5121).fetch = some 0x5121#16 ∧ decodeWord 0x5121#16 = none ∧
      ∃ t, stepWith {} (ready 0x5121) = .next t := ⟨by decide, by decide, by decide, _, rfl⟩

theorem witness_StepReport_not_halting :
    (ready 0x1200).Running ∧ (ready 0x1200).fetch = some 0x1200#16 ∧ decodeWord 0x1200#16 = some (.jp 0x200#12) ∧
      ∃ t, stepWith {} (ready 0x1200) = .next t ∧ t.halted = false := ⟨by decide, by decide, by decide, _, rfl, rfl⟩

theorem witness_SysChangesNothing : (0x1E0#12 : Addr) ≠ 0x0E0#12 ∧ (0x1E0#12 : Addr) ≠ 0x0EE#12 := by decide

theorem witness_RetPopsTheStackOrUnderflows :
    (State.reset.setStack [0x206#16]).stack = 0x206#16 :: [] ∧ State.reset.stack = [] := by decide

theorem witness_CallPushesTheReturnAddressOrOverflows :
    (State.reset.setStack (List.replicate 15 0x202#16)).stack.length < Config.stackDepth ∧
      (State.reset.setStack (List.replicate 16 0x202#16)).stack.length = Config.stackDepth ∧
      (State.reset.setStack [0x202#16]).stack.length < Params.stackDepth { stackDepth := 2 } ∧
      State.reset.stack.length = Params.stackDepth { stackDepth := 0 } := by decide

theorem witness_NestedCallsReturn :
    State.reset.stack.length + (List.replicate 16 (0x200#12 : Addr)).length ≤ Params.stackDepth {} := by decide

theorem witness_writes_to_ordinary_and_flag_register : (0 : RegIdx) ≠ 15 ∧ ¬ (15 : RegIdx) ≠ 15 := by decide

theorem witness_BcdStoresTheDecimalDigits :
    (State.reset.setI 0xFFD#16).mem.wf = true ∧ (State.reset.setI 0xFFD#16).i.toNat + 2 ≤ 0xFFF := by decide

theorem witness_StoreAndLoadRegisters :
    (State.reset.setI 0xFF0#16).mem.wf = true ∧ (State.reset.setI 0xFF0#16).i.toNat + (15 : RegIdx).val ≤ 0xFFF ∧
      (State.reset.setI 0xFFF#16).i.toNat + (0 : RegIdx).val ≤ 0xFFF := by decide

theorem witness_OutOfRangeAccessHaltsWithoutEffect :
    0xFFF < (State.reset.setI 0xFFE#16).i.toNat + 2 ∧ 0xFFF < (State.reset.setI 0xFF1#16).i.toNat + (15 : RegIdx).val ∧
      0xFFF < (State.reset.setI 0x1000#16).i.toNat + (0 : RegIdx).val ∧
      (0 < (2 : Fin 16).val ∧ 0xFFF < (State.reset.setI 0xFFF#16).i.toNat + (2 : Fin 16).val - 1) := by decide

/-- A state whose I is `a`, V0 is 0x12 and V1 is 0x34. -/
def storing (a : Word) : State := (withRegs 0 0x12#8 1 0x34#8).setI a

theorem witness_StoreThenLoadRestoresTheRegisters :
    (storing 0xFFE#16).mem.wf = true ∧ (storing 0xFFE#16).i.toNat + (1 : RegIdx).val ≤ 0xFFF ∧
      ∃ t, exec (.stV0Vx 1) (storing 0xFFE#16) = .next t ∧
        ∃ u, exec (.ldV0Vx 1) (t.setRegs (Vector.replicate 16 0#8)) = .next u := by
  exact ⟨by decide, by decide, _, rfl, _, rfl⟩

/-- A store over both bytes of the next instruction, over its second byte alone, and over its first alone. -/
theorem witness_StoredCodeIsFetchedNext :
    (storing 0x200#16).mem.wf = true ∧ (storing 0x200#16).pc.toNat ≤ 0xFFE ∧
      (storing 0x200#16).i.toNat + (1 : RegIdx).val ≤ 0xFFF ∧
      (∃ t, exec (.stV0Vx 1) (storing 0x200#16) = .next t ∧ t.fetch = some 0x1234#16) ∧
      (∃ t, exec (.stV0Vx 0) (storing 0x201#16) = .next t ∧ t.fetch = some 0x0012#16) ∧
      (∃ t, exec (.stV0Vx 1) (storing 0x1FF#16) = .next t ∧ t.fetch = some 0x3400#16) :=
  ⟨by decide, by decide, by decide, ⟨_, rfl, by decide⟩, ⟨_, rfl, by decide⟩, ⟨_, rfl, by decide⟩⟩

/-- FX33 of V1 = 0x34 = 52 over the next instruction, and beginning at the last address it fits (0xFFD). -/
theorem witness_StoredCodeIsFetchedNext_bcd :
    (storing 0xFFD#16).i.toNat + 2 ≤ 0xFFF ∧
      ∃ t, exec (.ldBVx 1) (storing 0x200#16) = .next t ∧ t.fetch = some 0x0005#16 :=
  ⟨by decide, _, rfl, by decide⟩

theorem witness_DrwXorsTheSpriteAndReportsCollision :
    ((0 : Fin 16).val = 0 ∨ (State.reset.setI 0xFFFF#16).i.toNat + (0 : Fin 16).val - 1 ≤ 0xFFF) ∧
      ((1 : Fin 16).val = 0 ∨ (State.reset.setI 0xFFF#16).i.toNat + (1 : Fin 16).val - 1 ≤ 0xFFF) := by decide

/-- A draw on a clear screen, and the state after it as the start of the second draw. -/
theorem witness_DrawingTwiceRestoresTheFramebuffer :
    ∃ t u, ((1 : Fin 16).val = 0 ∨ (withByteAtI 0x80#8).i.toNat + (1 : Fin 16).val - 1 ≤ 0xFFF) ∧
      exec (.drwVxVyN 1 2 1) (withByteAtI 0x80#8) = .next t ∧ t.mem = (withByteAtI 0x80#8).mem ∧
      t.i = (withByteAtI 0x80#8).i ∧ t.reg 1 = (withByteAtI 0x80#8).reg 1 ∧
      t.reg 2 = (withByteAtI 0x80#8).reg 2 ∧ exec (.drwVxVyN 1 2 1) t = .next u ∧
      ∀ row col, spriteCovers (withByteAtI 0x80#8) 1 2 1 row col = true →
        pixel (withByteAtI 0x80#8).fb row col = false :=
  ⟨_, _, by decide, rfl, rfl, rfl, rfl, rfl, rfl, fun row col _ => pixel_clearedFb row col⟩

theorem witness_KeySkipsTestTheKeyOfVx : (7 : KeyIdx).val = ((withRegs 5 0x17#8 0 0#8).reg 5).toNat % 16 := by decide

theorem witness_WaitingForAKeyChangesNothing :
    (ready 0xF30A).Running ∧ (ready 0xF30A).fetch = some (formatXNN 0xF 3 0x0A#8) ∧
      ∀ k : KeyIdx, (ready 0xF30A).key[k] = false := by decide

theorem witness_WaitTakesAPressedKey :
    (State.reset.setKey 0xB true).key[(0xB : KeyIdx)] = true ∧
      ∀ k' : KeyIdx, (State.reset.setKey 0xB true).key[k'] = true → k' = 0xB := by decide

theorem witness_LoadPlacesTheProgramOrRejectsIt :
    State.reset.mem.wf = true ∧ 3584 < (List.replicate 3585 0x01#8).length ∧
      (List.replicate 3584 0x01#8).length ≤ 3584 := by
  refine ⟨by decide, ?_, Nat.le_of_eq List.length_replicate⟩
  rw [List.length_replicate]; omega

theorem witness_OnlyResetClearsHalted : stopped.halted = true ∧ HostOp.tick ≠ .reset := by decide

/-- The invariant of a state with an empty stack and PC at 0x200. -/
theorem inv_of {s : State} (hs : s.stack = []) (hp : s.pc = 0x200#16) (hm : s.mem.wf = true)
    (hf : s.halted = s.fault.isSome) : s.Inv := by
  refine ⟨?_, ?_, ?_, hm, hf⟩ <;> simp [hs, hp]

theorem witness_StepKeepsTheInvariant :
    (ready 0x2300).Inv ∧ ∃ t, step (ready 0x2300) = .next t :=
  ⟨inv_of (by decide) (by decide) (by decide) (by decide), _, rfl⟩

theorem witness_schedules : State.reset.Inv ∧ State.reset.FaultDescribes :=
  ⟨inv_of (by decide) (by decide) (by decide) (by decide), trivial⟩

theorem witness_FaultRecordDescribes_nontrivial : stopped.Inv ∧ stopped.FaultDescribes :=
  ⟨inv_of (by decide) (by decide) (by decide) (by decide), rfl, rfl⟩

theorem witness_FinishedStateIsAFixedPoint : (ready 0x1200).Finished := by decide

theorem witness_RegisterDestinationFrame :
    Instr.addVxNn 1 2#8 ∈ [Instr.ldVxNn 1 2#8, .addVxNn 1 2#8] ∧
      ∃ t, exec (.addVxNn 1 2#8) State.reset = .next t := ⟨by decide, _, rfl⟩

theorem witness_TransferFrame : ∃ t, exec (.seVxNn 0 0#8) State.reset = .next t := ⟨_, rfl⟩

theorem witness_SingleComponentFrame :
    (∃ t, exec (.ldINnn 0x300#12) State.reset = .next t) ∧ (∃ t, exec (.ldDtVx 0) State.reset = .next t) ∧
      (∃ t, exec (.ldStVx 0) State.reset = .next t) ∧ ∃ t, exec .cls State.reset = .next t :=
  ⟨⟨_, rfl⟩, ⟨_, rfl⟩, ⟨_, rfl⟩, ⟨_, rfl⟩⟩

/-- Each premise "the component changed" is met by one of its writers. -/
theorem witness_ComponentsAreWrittenOnlyByTheirWriters :
    (∃ t, exec (.ldINnn 0x300#12) State.reset = .next t ∧ t.i ≠ State.reset.i) ∧
      (∃ t, exec (.call 0x300#12) State.reset = .next t ∧ t.stack ≠ State.reset.stack) ∧
      (∃ t, exec (.ldDtVx 1) (withRegs 0 0#8 1 1#8) = .next t ∧ t.dt ≠ (withRegs 0 0#8 1 1#8).dt) ∧
      (∃ t, exec (.ldStVx 1) (withRegs 0 0#8 1 1#8) = .next t ∧ t.st ≠ (withRegs 0 0#8 1 1#8).st) ∧
      (∃ t, exec .cls (withPixel 0 0 State.reset) = .next t ∧ t.fb ≠ (withPixel 0 0 State.reset).fb) ∧
      (∃ t, exec (.stV0Vx 1) (storing 0x300#16) = .next t ∧ t.mem ≠ (storing 0x300#16).mem) ∧
      (∃ t, exec .ret State.reset = .next t ∧ t.halted ≠ State.reset.halted) ∧
      ∃ t, exec (.rndVxNn 1 0xFF#8) State.reset = .next t ∧ t.draws ≠ State.reset.draws :=
  ⟨⟨_, rfl, by decide⟩, ⟨_, rfl, by decide⟩, ⟨_, rfl, by decide⟩, ⟨_, rfl, by decide⟩, ⟨_, rfl, by decide⟩,
    ⟨_, rfl, by decide⟩, ⟨_, rfl, by decide⟩, ⟨_, rfl, by decide⟩⟩

theorem witness_ComponentsAreWritten_with_parameters :
    (∃ t, execWith {} (.call 0x300#12) State.reset = .next t ∧ t.stack ≠ State.reset.stack) ∧
      ∃ t, execWith {} (.rndVxNn 1 0xFF#8) State.reset = .next t ∧ t.draws ≠ State.reset.draws :=
  ⟨⟨_, rfl, by decide⟩, ⟨_, rfl, by decide⟩⟩

theorem witness_OnlyKeyInstructionsReadTheKeypad :
    (∀ x, Instr.jp 0x300#12 ≠ .skpVx x) ∧ (∀ x, Instr.jp 0x300#12 ≠ .sknpVx x) ∧
      (∀ x, Instr.jp 0x300#12 ≠ .ldVxK x) :=
  ⟨fun _ => nofun, fun _ => nofun, fun _ => nofun⟩

theorem witness_NoInstructionReadsTheSoundTimer : ∀ x, Instr.ldVxDt 3 ≠ .ldStVx x := fun _ => nofun

theorem witness_DecodeErrorWords :
    (slice 0x5001 15 12 = 0x5 ∧ slice 0x5001 3 0 ≠ 0x0) ∧ slice 0x800F 3 0 ∈ [0x8, 0x9, 0xA, 0xB, 0xC, 0xD, 0xF] ∧
      slice 0x9001 3 0 ≠ 0x0 ∧ slice 0xE09F 7 0 ∉ [0x9E, 0xA1] ∧
      slice 0xF064 7 0 ∉ [0x07, 0x0A, 0x15, 0x18, 0x1E, 0x29, 0x33, 0x55, 0x65] := by decide

end Sys2Proof.Tests
end

section
/-! SUPPORT. Dispatch on the low byte (30_encoding.md R77, R78): the decoder's matches on the number `NN` as chains of
tests of the byte `NN`, for any word of the group. -/

namespace Sys2Proof

/-- The number the decoder dispatches on in groups E and F is the value of the byte NN. -/
theorem slice_low_eq_toNat_fieldNN (w : Word) : slice w 7 0 = (fieldNN w).toNat := by
  rw [fieldNN_toNat]
  simp [slice]

theorem decodeWord_of_fieldF_eq_E {w : Word} (hf : fieldF w = 0xE) : decodeWord w = decodeGroupE w := by
  simp only [decodeWord, hf]

theorem decodeWord_of_fieldF_eq_F {w : Word} (hf : fieldF w = 0xF) : decodeWord w = decodeGroupF w := by
  simp only [decodeWord, hf]

/-- R77 for every word: two values of NN name an instruction, whatever X is. -/
theorem decodeGroupE_eq (w : Word) :
    decodeGroupE w =
      (if fieldNN w = 0x9E#8 then some (.skpVx (fieldX w)) else if fieldNN w = 0xA1#8 then some (.sknpVx (fieldX w))
       else none) := by
  simp only [decodeGroupE, slice_low_eq_toNat_fieldNN, BitVec.toNat_eq]
  split
  next h => simp [h]
  next h => simp [h]
  next h9E hA1 =>
    rw [imp_false] at h9E hA1
    simp [h9E, hA1]

/-- R78 for every word: nine values of NN name an instruction, whatever X is. -/
theorem decodeGroupF_eq (w : Word) :
    decodeGroupF w =
      (if fieldNN w = 0x07#8 then some (.ldVxDt (fieldX w)) else if fieldNN w = 0x0A#8 then some (.ldVxK (fieldX w))
       else if fieldNN w = 0x15#8 then some (.ldDtVx (fieldX w))
       else if fieldNN w = 0x18#8 then some (.ldStVx (fieldX w))
       else if fieldNN w = 0x1E#8 then some (.addIVx (fieldX w))
       else if fieldNN w = 0x29#8 then some (.ldFVx (fieldX w))
       else if fieldNN w = 0x33#8 then some (.ldBVx (fieldX w))
       else if fieldNN w = 0x55#8 then some (.stV0Vx (fieldX w))
       else if fieldNN w = 0x65#8 then some (.ldV0Vx (fieldX w)) else none) := by
  simp only [decodeGroupF, slice_low_eq_toNat_fieldNN, BitVec.toNat_eq]
  split
  case h_10 h07 h0A h15 h18 h1E h29 h33 h55 h65 =>
    rw [imp_false] at h07 h0A h15 h18 h1E h29 h33 h55 h65
    simp [h07, h0A, h15, h18, h1E, h29, h33, h55, h65]
  all_goals next h => simp [h]

/-- Settles O5: a word of format XNN has the nibble, X and NN it was made of, and each group tests NN alone. -/
theorem groupsEAndFDispatchOnTheLowByte : Obligations.GroupsEAndFDispatchOnTheLowByte := by
  intro x nn
  constructor
  · obtain ⟨hf, hx, hnn, -⟩ := formatXNN_fields (f := 0xE) (by omega) x nn
    rw [decodeWord_of_fieldF_eq_E hf, decodeGroupE_eq, hx, hnn]
  · obtain ⟨hf, hx, hnn, -⟩ := formatXNN_fields (f := 0xF) (by omega) x nn
    rw [decodeWord_of_fieldF_eq_F hf, decodeGroupF_eq, hx, hnn]

end Sys2Proof
end

section
/-! SUPPORT. What the host's step operation answers from what the step does (40_cycle_and_host_ops.md R92, R95), and the
key a host's key input writes (R98). -/

namespace Sys2Proof.Machine

variable {p : Params} {s t : State}

/-! ## The step operation -/

theorem stepWith_of_decode_none (hr : s.Running) {op : Word} (h : s.fetch = some op)
    (hd : decodeWord op = none) : stepWith p s = .next s.advance := fetchExecute_of_decode_none hr h hd

/-- A step operation leaves the state that the step answers (R92). -/
theorem State.afterStep_of_next (h : stepWith p s = .next t) : s.afterStep p = t := by
  simp only [State.afterStep, h]

/-- A word that is no instruction is reported with the word itself (R95, R192). -/
theorem stepReport_of_decode_none (hr : s.Running) {op : Word} (h : s.fetch = some op)
    (hd : decodeWord op = none) : stepReport s p = .decodeError op := by
  simp [stepReport, h, hr, hd]

/-- Settles O10: both bytes of the word are fetched, the cycle answers the advanced state, at the default parameters and
at any other, and the report names the word. -/
theorem decodeErrorWordOnlyAdvancesPc : Obligations.DecodeErrorWordOnlyAdvancesPc := by
  intro s high low hr hhigh hlow hd
  have hf : s.fetch = some (wordOfBytes high low) := fetch_eq_some hhigh hlow
  refine ⟨step_of_decode_none hr hf hd, fun p => ?_⟩
  have hs : s.afterStep p = s.advance := State.afterStep_of_next (stepWith_of_decode_none hr hf hd)
  rw [perform, hs, stepReport_of_decode_none hr hf hd, State.advance]

/-! ## Key input -/

/-- A key reads what key input wrote to it, and every other key reads as before (R98). -/
theorem State.setKey_key_getElem (s : State) (k : KeyIdx) (pressed : Bool) (j : KeyIdx) :
    (s.setKey k pressed).key[j] = if j = k then pressed else s.key[j] := by
  simp only [State.setKey, State.setKeys_key, Fin.getElem_fin, Vector.getElem_set, Fin.ext_iff, eq_comm]

/-- Writing the keypad latch touches nothing else. -/
theorem State.setKeys_frame (s : State) (keys : Keypad) : Frame { key := true } s (s.setKeys keys) := by
  constructor
  case key => nofun
  all_goals intros; rfl

/-- Settles O47: key input is a write of one entry of the keypad latch. -/
theorem setKeyWritesOneFlag : Obligations.SetKeyWritesOneFlag :=
  fun s k pressed => ⟨rfl, s.setKey_key_getElem k pressed, s.setKeys_frame _⟩

end Sys2Proof.Machine
end

section
/-! SUPPORT. Jumps and compare skips (41_control_flow.md R112, R115 to R118): what a write of PC and a skip leave
unchanged, and which PC a skip on a comparison of two bytes leaves. -/

namespace Sys2Proof.Machine

variable (s : State)

/-! ## Writing PC -/

/-- Writing PC touches nothing else. -/
theorem State.setPc_frame (w : Word) : Frame { pc := true } s (s.setPc w) := by
  constructor
  case pc => nofun
  all_goals intros; rfl

/-- A skip touches PC alone, taken or not. -/
theorem State.skipIf_frame (c : Bool) : Frame { pc := true } s (s.skipIf c) := by
  rw [skipIf_eq]
  exact s.setPc_frame _

/-- A frame without the halt components raised no condition. -/
theorem Frame.noException {w : Touch} {s t : State} (h : Frame w s t) (hw : w.halt = false) : NoException s t :=
  ⟨h.halted hw, h.fault hw⟩

/-! ## The skips on a comparison -/

theorem skipIf_beq_pc (a b : Byte) :
    (s.skipIf (a == b)).pc = if a.toNat = b.toNat then s.pc + 2#16 else s.pc := by
  simp only [skipIf_eq, State.setPc_pc, beq_iff_eq, BitVec.toNat_eq]

/-- The skip with the condition negated moves PC exactly when the skip on equality does not (R116, R118). -/
theorem skipIf_bne_pc (a b : Byte) :
    (s.skipIf (a != b)).pc = if a.toNat = b.toNat then s.pc else s.pc + 2#16 := by
  simp only [skipIf_eq, State.setPc_pc, bne_iff_ne, ne_eq, BitVec.toNat_eq, ite_not]

variable {s} {i : Instr} {a b : Byte}

/-- An instruction that is a skip on equality: PC advances once more exactly on equal values, and no register changes. -/
theorem exec_skip_of_eq (h : exec i s = .next (s.skipIf (a == b))) :
    ∃ t, exec i s = .next t ∧ NoException s t ∧ (∀ r, t.reg r = s.reg r) ∧
      t.pc = if a.toNat = b.toNat then s.pc + 2#16 else s.pc :=
  have hframe := s.skipIf_frame (a == b)
  ⟨_, h, hframe.noException rfl, fun r => hframe.regs r nofun, skipIf_beq_pc s a b⟩

/-- An instruction that is a skip on inequality: PC advances once more exactly on different values. -/
theorem exec_skip_of_ne (h : exec i s = .next (s.skipIf (a != b))) :
    ∃ t, exec i s = .next t ∧ NoException s t ∧ (∀ r, t.reg r = s.reg r) ∧
      t.pc = if a.toNat = b.toNat then s.pc else s.pc + 2#16 :=
  have hframe := s.skipIf_frame (a != b)
  ⟨_, h, hframe.noException rfl, fun r => hframe.regs r nofun, skipIf_bne_pc s a b⟩

/-! ## The meanings of the jump and of the compare skips -/

theorem exec_jp (nnn : Addr) (s : State) : exec (.jp nnn) s = .next (s.setPc (zextAddr nnn)) := rfl

theorem exec_seVxNn (x : RegIdx) (nn : Byte) (s : State) :
    exec (.seVxNn x nn) s = .next (s.skipIf (s.reg x == nn)) := rfl

theorem exec_sneVxNn (x : RegIdx) (nn : Byte) (s : State) :
    exec (.sneVxNn x nn) s = .next (s.skipIf (s.reg x != nn)) := rfl

theorem exec_seVxVy (x y : RegIdx) (s : State) :
    exec (.seVxVy x y) s = .next (s.skipIf (s.reg x == s.reg y)) := rfl

theorem exec_sneVxVy (x y : RegIdx) (s : State) :
    exec (.sneVxVy x y) s = .next (s.skipIf (s.reg x != s.reg y)) := rfl

end Sys2Proof.Machine
end

section
/-! PROOFS. The jump and the four compare skips (41_control_flow.md R112, R115 to R118): the encoding is the round trip of
the instruction, the effect is that of the PC write or the skip. -/

namespace Sys2Proof.Machine

/-- Settles O16: JP is a write of PC with the zero-extended address. -/
theorem jpSetsPc : Obligations.JpSetsPc := by
  intro nnn s
  have hframe := s.setPc_frame (zextAddr nnn)
  exact ⟨Laws.RoundTrip.jp nnn rfl, _, exec_jp nnn s, zextAddr_toNat nnn, hframe.regs 15 nofun, hframe.noException rfl⟩

/-- Settles O17: 3XNN is the skip on VX = NN, 4XNN the skip on VX ≠ NN. -/
theorem immediateSkipsAddTwoToPc : Obligations.ImmediateSkipsAddTwoToPc := by
  intro x nn s
  exact ⟨Laws.RoundTrip.seVxNn x nn rfl, Laws.RoundTrip.sneVxNn x nn rfl,
    exec_skip_of_eq (exec_seVxNn x nn s), exec_skip_of_ne (exec_sneVxNn x nn s)⟩

/-- Settles O18: 5XY0 is the skip on VX = VY, 9XY0 the skip on VX ≠ VY. -/
theorem registerSkipsAddTwoToPc : Obligations.RegisterSkipsAddTwoToPc := by
  intro x y s
  exact ⟨Laws.RoundTrip.seVxVy x y rfl, Laws.RoundTrip.sneVxVy x y rfl,
    exec_skip_of_eq (exec_seVxVy x y s), exec_skip_of_ne (exec_sneVxVy x y s)⟩

end Sys2Proof.Machine
end

section
/-! PROOFS. The immediate load and the immediate addition (42_load_and_alu.md R130, R131): each is one write of VX, so VF
changes only as that destination. -/

namespace Sys2Proof.Machine

/-- Writing a register touches nothing else. -/
theorem State.setReg_frame (s : State) (x : RegIdx) (b : Byte) : Frame { regs := [x] } s (s.setReg x b) := by
  constructor
  case regs => exact fun r hr => s.setReg_reg_of_ne (List.ne_of_not_mem_cons hr) b
  all_goals intros; rfl

/-- A write of VX keeps VF when X is another register, and raises no condition. -/
theorem State.setReg_keeps_vf_noException (s : State) (x : RegIdx) (b : Byte) :
    (x ≠ 15 → (s.setReg x b).reg 15 = s.reg 15) ∧ NoException s (s.setReg x b) :=
  ⟨fun hx => s.setReg_reg_of_ne hx.symm b, (s.setReg_frame x b).noException rfl⟩

theorem exec_ldVxNn (x : RegIdx) (nn : Byte) (s : State) : exec (.ldVxNn x nn) s = .next (s.setReg x nn) := rfl

theorem exec_addVxNn (x : RegIdx) (nn : Byte) (s : State) :
    exec (.addVxNn x nn) s = .next (s.setReg x (s.reg x + nn)) := rfl

/-- Settles O23: LD writes NN to VX and ADD writes the sum of bytes, which is the sum modulo 256. -/
theorem immediateLoadAndAdd : Obligations.ImmediateLoadAndAdd := by
  intro x nn s
  refine ⟨Laws.RoundTrip.ldVxNn x nn rfl, Laws.RoundTrip.addVxNn x nn rfl, ?load, ?add⟩
  case load => exact ⟨_, exec_ldVxNn x nn s, s.setReg_reg_self x nn, s.setReg_keeps_vf_noException x nn⟩
  case add =>
    have hsum : ((s.setReg x (s.reg x + nn)).reg x).toNat = ((s.reg x).toNat + nn.toNat) % 256 := by
      rw [State.setReg_reg_self, BitVec.toNat_add]
    exact ⟨_, exec_addVxNn x nn s, hsum, s.setReg_keeps_vf_noException x _⟩

end Sys2Proof.Machine
end

section
/-! PROOFS. The load of the index register (43_index_and_memory.md R150): one write of I, which no register and no
condition sees. -/

namespace Sys2Proof.Machine

/-- Writing I touches nothing else. -/
theorem State.setI_frame (s : State) (w : Word) : Frame { i := true } s (s.setI w) := by
  constructor
  case i => nofun
  all_goals intros; rfl

theorem exec_ldINnn (nnn : Addr) (s : State) : exec (.ldINnn nnn) s = .next (s.setI (zextAddr nnn)) := rfl

/-- Settles O29: ANNN is a write of I with the zero-extended address. -/
theorem ldISetsTheIndex : Obligations.LdISetsTheIndex := by
  intro nnn s
  have hframe := s.setI_frame (zextAddr nnn)
  exact ⟨Laws.RoundTrip.ldINnn nnn rfl, _, exec_ldINnn nnn s, zextAddr_toNat nnn, hframe.regs 15 nofun,
    hframe.noException rfl⟩

end Sys2Proof.Machine
end

section
/-! PROOFS. CLS (44_display.md R170): one write of the framebuffer, which no register and no condition sees; the output
reads the cleared pixels back. -/

namespace Sys2Proof.Machine

/-- Writing the framebuffer touches nothing else. -/
theorem State.setFb_frame (s : State) (f : Framebuffer) : Frame { fb := true } s (s.setFb f) := by
  constructor
  case fb => nofun
  all_goals intros; rfl

/-- The framebuffer output is the framebuffer last written (R39). -/
@[simp] theorem State.framebuffer_setFb (s : State) (f : Framebuffer) : (s.setFb f).framebuffer = f := rfl

theorem exec_cls (s : State) : exec .cls s = .next (s.setFb clearedFb) := rfl

/-- Settles O37: CLS is a write of the framebuffer with the cleared one, whose every pixel is off. -/
theorem clsTurnsEveryPixelOff : Obligations.ClsTurnsEveryPixelOff := by
  refine ⟨Laws.RoundTrip.cls rfl, fun s => ?_⟩
  have hframe := s.setFb_frame clearedFb
  have hoff : ∀ y x, pixel (s.setFb clearedFb).framebuffer y x = false := by
    intro y x
    rw [State.framebuffer_setFb, pixel_clearedFb]
  exact ⟨_, exec_cls s, hoff, hframe.regs 15 nofun, hframe.noException rfl⟩

end Sys2Proof.Machine
end

section
/-! PROOFS. The delay timer's two transfers (45_keypad_and_timers.md R183, R184): FX07 is one write of VX, FX15 one write
of DT, which no register and no condition sees. -/

namespace Sys2Proof.Machine

/-- Writing DT touches nothing else. -/
theorem State.setDt_frame (s : State) (b : Byte) : Frame { dt := true } s (s.setDt b) := by
  constructor
  case dt => nofun
  all_goals intros; rfl

theorem exec_ldVxDt (x : RegIdx) (s : State) : exec (.ldVxDt x) s = .next (s.setReg x s.dt) := rfl

theorem exec_ldDtVx (x : RegIdx) (s : State) : exec (.ldDtVx x) s = .next (s.setDt (s.reg x)) := rfl

/-- Settles O43: FX07 writes the timer's byte to VX and keeps DT, FX15 writes VX's byte to DT. -/
theorem delayTimerTransfers : Obligations.DelayTimerTransfers := by
  intro x s
  refine ⟨Laws.RoundTrip.ldVxDt x rfl, Laws.RoundTrip.ldDtVx x rfl, ?read, ?write⟩
  case read =>
    exact ⟨_, exec_ldVxDt x s, s.setReg_reg_self x s.dt, s.setReg_dt x s.dt, s.setReg_keeps_vf_noException x s.dt⟩
  case write =>
    have hframe := s.setDt_frame (s.reg x)
    exact ⟨_, exec_ldDtVx x s, s.setDt_dt (s.reg x), hframe.regs 15 nofun, hframe.noException rfl⟩

end Sys2Proof.Machine
end

section
/-! PROOFS. Decode after encode (30_encoding.md R70 to R73): the round trips of the 35 instructions, collected, and
the two bytes of a word read back as the word. -/

namespace Sys2Proof

/-- Every well-formed instruction is read back from its word: the family `Laws.RoundTrip`, collected. -/
theorem decodeWord_encode {i : Instr} (h : i.wellFormed = true) : decodeWord (encode i) = some i := by
  cases i with
  | cls => exact Laws.RoundTrip.cls h
  | ret => exact Laws.RoundTrip.ret h
  | sys nnn => exact Laws.RoundTrip.sys nnn h
  | jp nnn => exact Laws.RoundTrip.jp nnn h
  | call nnn => exact Laws.RoundTrip.call nnn h
  | seVxNn x nn => exact Laws.RoundTrip.seVxNn x nn h
  | sneVxNn x nn => exact Laws.RoundTrip.sneVxNn x nn h
  | seVxVy x y => exact Laws.RoundTrip.seVxVy x y h
  | sneVxVy x y => exact Laws.RoundTrip.sneVxVy x y h
  | ldVxNn x nn => exact Laws.RoundTrip.ldVxNn x nn h
  | addVxNn x nn => exact Laws.RoundTrip.addVxNn x nn h
  | ldVxVy x y => exact Laws.RoundTrip.ldVxVy x y h
  | orVxVy x y => exact Laws.RoundTrip.orVxVy x y h
  | andVxVy x y => exact Laws.RoundTrip.andVxVy x y h
  | xorVxVy x y => exact Laws.RoundTrip.xorVxVy x y h
  | addVxVy x y => exact Laws.RoundTrip.addVxVy x y h
  | subVxVy x y => exact Laws.RoundTrip.subVxVy x y h
  | shrVx x y => exact Laws.RoundTrip.shrVx x y h
  | subnVxVy x y => exact Laws.RoundTrip.subnVxVy x y h
  | shlVx x y => exact Laws.RoundTrip.shlVx x y h
  | ldINnn nnn => exact Laws.RoundTrip.ldINnn nnn h
  | jpV0Nnn nnn => exact Laws.RoundTrip.jpV0Nnn nnn h
  | rndVxNn x nn => exact Laws.RoundTrip.rndVxNn x nn h
  | drwVxVyN x y n => exact Laws.RoundTrip.drwVxVyN x y n h
  | skpVx x => exact Laws.RoundTrip.skpVx x h
  | sknpVx x => exact Laws.RoundTrip.sknpVx x h
  | ldVxDt x => exact Laws.RoundTrip.ldVxDt x h
  | ldDtVx x => exact Laws.RoundTrip.ldDtVx x h
  | ldStVx x => exact Laws.RoundTrip.ldStVx x h
  | addIVx x => exact Laws.RoundTrip.addIVx x h
  | ldVxK x => exact Laws.RoundTrip.ldVxK x h
  | ldFVx x => exact Laws.RoundTrip.ldFVx x h
  | ldBVx x => exact Laws.RoundTrip.ldBVx x h
  | stV0Vx x => exact Laws.RoundTrip.stV0Vx x h
  | ldV0Vx x => exact Laws.RoundTrip.ldV0Vx x h

/-- Two bytes decode to an instruction exactly when their word does, and what follows them is left (R70). -/
theorem decode_eq_ok_iff {high low : Byte} {rest rest' : List Byte} {i : Instr} :
    decode (high :: low :: rest) = .ok (i, rest') ↔ decodeWord (wordOfBytes high low) = some i ∧ rest' = rest := by
  cases hd : decodeWord (wordOfBytes high low) with
  | none => simp [decode, hd]
  | some j => simp [decode, hd, eq_comm]

/-- Settles O3: the two bytes make up the encoded word again, and the word decodes to its instruction. -/
theorem decodeOfEncodedBytesIsTheInstruction : Obligations.DecodeOfEncodedBytesIsTheInstruction := by
  intro i rest hi
  refine decode_eq_ok_iff.2 ⟨?_, rfl⟩
  rw [wordOfBytes_highByte_lowByte, decodeWord_encode hi]

end Sys2Proof
end

section
/-! SUPPORT. The inverse direction (30_encoding.md R71, R72): a word is made of its fields, in each of the formats, so
that no bit of it is dropped. -/

namespace Sys2Proof

variable {w : Word} {f : Nat}

theorem fieldF_lt (w : Word) : fieldF w < 16 := by
  have := w.isLt
  rw [fieldF_eq]; omega

theorem formatNNN_eq_of_fields (hf : fieldF w = f) : formatNNN f (fieldNNN w) = w := by
  have hlt := fieldF_lt w
  rw [hf] at hlt
  apply BitVec.eq_of_toNat_eq
  rw [formatNNN_toNat hlt, fieldNNN_toNat, ← hf, fieldF_eq]; omega

theorem formatXNN_eq_of_fields {nn : Byte} (hf : fieldF w = f) (hn : fieldNN w = nn) :
    formatXNN f (fieldX w) nn = w := by
  have hlt := fieldF_lt w
  rw [hf] at hlt
  apply BitVec.eq_of_toNat_eq
  rw [formatXNN_toNat hlt, fieldX_val, ← hn, fieldNN_toNat, ← hf, fieldF_eq]; omega

theorem formatXYN_eq_of_fields {n : Fin 16} (hf : fieldF w = f) (hn : fieldN w = n) :
    formatXYN f (fieldX w) (fieldY w) n = w := by
  have hlt := fieldF_lt w
  rw [hf] at hlt
  apply BitVec.eq_of_toNat_eq
  rw [formatXYN_toNat hlt, fieldX_val, fieldY_val, ← hn, fieldN_val, ← hf, fieldF_eq]; omega

theorem fieldNN_of_slice {n : Nat} (h : slice w 7 0 = n) : fieldNN w = BitVec.ofNat 8 n := by
  rw [fieldNN, h]

theorem fieldN_of_slice {n : Nat} (h : slice w 3 0 = n) : fieldN w = Fin.ofNat 16 n := by
  rw [fieldN, h]

end Sys2Proof
end

section
/-! PROOFS. Encode after decode (30_encoding.md R72 to R80): in each group the decoded instruction is well-formed and is
written as the word it came from. -/

namespace Sys2Proof

variable {w : Word} {i : Instr}

/-- Group 0 (R74): the two whole words, and SYS, which holds neither of their addresses. -/
theorem encode_decodeGroup0 (hf : fieldF w = 0x0) :
    (decodeGroup0 w).wellFormed = true ∧ encode (decodeGroup0 w) = w := by
  unfold decodeGroup0
  split
  · next h => exact ⟨rfl, h.symm⟩
  · split
    · next h => exact ⟨rfl, h.symm⟩
    · next hcls hret =>
      have hw := formatNNN_eq_of_fields hf
      refine ⟨?_, hw⟩
      have h0 : fieldNNN w ≠ 0x0E0#12 := fun h => hcls (by rw [← hw, h]; rfl)
      have h1 : fieldNNN w ≠ 0x0EE#12 := fun h => hret (by rw [← hw, h]; rfl)
      simp [Instr.wellFormed, h0, h1]

/-- Group 8 (R75): the low nibble that names the operation is the nibble the format writes. -/
theorem encode_of_decodeGroup8 (hf : fieldF w = 0x8) (h : decodeGroup8 w = some i) :
    i.wellFormed = true ∧ encode i = w := by
  unfold decodeGroup8 at h
  split at h
  case h_10 => cases h
  all_goals
    next hn =>
      cases h
      exact ⟨rfl, formatXYN_eq_of_fields hf (fieldN_of_slice hn)⟩

/-- Group E (R77): the low byte that names the operation is the byte the format writes. -/
theorem encode_of_decodeGroupE (hf : fieldF w = 0xE) (h : decodeGroupE w = some i) :
    i.wellFormed = true ∧ encode i = w := by
  unfold decodeGroupE at h
  split at h
  case h_3 => cases h
  all_goals
    next hn =>
      cases h
      exact ⟨rfl, formatXNN_eq_of_fields hf (fieldNN_of_slice hn)⟩

/-- Group F (R78): the low byte that names the operation is the byte the format writes. -/
theorem encode_of_decodeGroupF (hf : fieldF w = 0xF) (h : decodeGroupF w = some i) :
    i.wellFormed = true ∧ encode i = w := by
  unfold decodeGroupF at h
  split at h
  case h_10 => cases h
  all_goals
    next hn =>
      cases h
      exact ⟨rfl, formatXNN_eq_of_fields hf (fieldNN_of_slice hn)⟩

/-- The nibble that is none of the fifteen the decoder names first is F, the decoder's last arm. -/
theorem fieldF_eq_F_of_ne (h : ∀ f < 15, fieldF w ≠ f) : fieldF w = 0xF := by
  have hlt := fieldF_lt w
  by_contra hne
  exact h (fieldF w) (by omega) rfl

/-- Settles O4: by the group nibble; each group's format writes back the fields the decoder read. -/
theorem encodeOfDecodedWordIsTheWord : Obligations.EncodeOfDecodedWordIsTheWord := by
  intro w i h
  unfold decodeWord at h
  split at h
  case h_1 hf => cases h; exact encode_decodeGroup0 hf
  case h_9 hf => exact encode_of_decodeGroup8 hf h
  case h_15 hf => exact encode_of_decodeGroupE hf h
  case h_16 =>
    refine encode_of_decodeGroupF (fieldF_eq_F_of_ne fun f hf => ?_) h
    interval_cases f <;> assumption
  case h_6 hf =>
    split at h
    · next hn => cases h; exact ⟨rfl, formatXYN_eq_of_fields hf (fieldN_of_slice hn)⟩
    · cases h
  case h_10 hf =>
    split at h
    · next hn => cases h; exact ⟨rfl, formatXYN_eq_of_fields hf (fieldN_of_slice hn)⟩
    · cases h
  case h_14 hf => cases h; exact ⟨rfl, formatXYN_eq_of_fields hf rfl⟩
  case h_2 hf | h_3 hf | h_11 hf | h_12 hf => cases h; exact ⟨rfl, formatNNN_eq_of_fields hf⟩
  case h_4 hf | h_5 hf | h_7 hf | h_8 hf | h_13 hf => cases h; exact ⟨rfl, formatXNN_eq_of_fields hf rfl⟩

end Sys2Proof
end

section
/-! PROOFS. The words that are no instruction (30_encoding.md R79): for each group nibble, the words its decoder
rejects. -/

namespace Sys2Proof

variable (w : Word)

/-- R75: the low nibbles of group 8 that name no operation. -/
theorem decodeGroup8_eq_none_iff :
    decodeGroup8 w = none ↔ slice w 3 0 ∈ [0x8, 0x9, 0xA, 0xB, 0xC, 0xD, 0xF] := by
  have hlt : slice w 3 0 < 16 := Nat.mod_lt _ (by decide)
  unfold decodeGroup8
  generalize slice w 3 0 = n at hlt
  interval_cases n <;> simp

/-- R77: the low bytes of group E that name no operation. -/
theorem decodeGroupE_eq_none_iff : decodeGroupE w = none ↔ slice w 7 0 ∉ [0x9E, 0xA1] := by
  unfold decodeGroupE
  split <;> simp_all

/-- R78: the low bytes of group F that name no operation. -/
theorem decodeGroupF_eq_none_iff :
    decodeGroupF w = none ↔ slice w 7 0 ∉ [0x07, 0x0A, 0x15, 0x18, 0x1E, 0x29, 0x33, 0x55, 0x65] := by
  unfold decodeGroupF
  split <;> simp_all

/-- Settles O6: by the group nibble; groups 5, 8, 9, E and F reject one set each, every other group none. -/
theorem decodeErrorWordsAreExactlyTheFiveSets : Obligations.DecodeErrorWordsAreExactlyTheFiveSets := by
  intro w
  have hlt : fieldF w < 16 := fieldF_lt w
  unfold decodeWord
  rw [← fieldF]
  generalize fieldF w = f at hlt
  interval_cases f <;> simp [decodeGroup8_eq_none_iff, decodeGroupE_eq_none_iff, decodeGroupF_eq_none_iff]

end Sys2Proof
end

section
/-! SUPPORT. A word under the masks of the decode table (30_encoding.md R83): which test of its fields each kind of row
makes. -/

namespace Sys2Proof

variable (w : Word)

/-- Masking splits at a bit position: the parts above and below it are masked apart. -/
theorem nat_and_mul_add (x a b n : Nat) (hb : b < 2 ^ n) :
    x &&& (2 ^ n * a + b) = 2 ^ n * (x / 2 ^ n &&& a) + (x % 2 ^ n &&& b) := by
  have hdiv : (2 ^ n * a + b) / 2 ^ n = a := by
    rw [Nat.mul_add_div (Nat.two_pow_pos n), Nat.div_eq_of_lt hb, Nat.add_zero]
  have hmod : (2 ^ n * a + b) % 2 ^ n = b := by rw [Nat.mul_add_mod, Nat.mod_eq_of_lt hb]
  rw [← Nat.div_add_mod (x &&& (2 ^ n * a + b)) (2 ^ n), Nat.and_div_two_pow, Nat.and_mod_two_pow, hdiv, hmod]

/-- The mask of the group nibble alone: formats NNN, XNN and the XYN of DXYN. -/
theorem and_F000_toNat : (w &&& (0xF000 : Word)).toNat = 4096 * fieldF w := by
  have := w.isLt
  have hand := nat_and_mul_add w.toNat 0xF 0 12 (by decide)
  rw [show (0xF : Nat) = 2 ^ 4 - 1 by rfl, Nat.and_two_pow_sub_one_eq_mod, Nat.and_zero] at hand
  rw [BitVec.toNat_and, fieldF_eq]
  refine Eq.trans hand ?_
  omega

/-- The mask of the group nibble and the low nibble: format XY. -/
theorem and_F00F_toNat : (w &&& (0xF00F : Word)).toNat = 4096 * fieldF w + slice w 3 0 := by
  have := w.isLt
  have hand := nat_and_mul_add w.toNat 0xF 0xF 12 (by decide)
  rw [show (0xF : Nat) = 2 ^ 4 - 1 by rfl, Nat.and_two_pow_sub_one_eq_mod, Nat.and_two_pow_sub_one_eq_mod] at hand
  rw [BitVec.toNat_and, fieldF_eq, slice]
  refine Eq.trans hand ?_
  omega

/-- The mask of the group nibble and the low byte: format X. -/
theorem and_F0FF_toNat : (w &&& (0xF0FF : Word)).toNat = 4096 * fieldF w + slice w 7 0 := by
  have := w.isLt
  have hand := nat_and_mul_add w.toNat 0xF 0xFF 12 (by decide)
  rw [show (0xF : Nat) = 2 ^ 4 - 1 by rfl, show (0xFF : Nat) = 2 ^ 8 - 1 by rfl,
    Nat.and_two_pow_sub_one_eq_mod, Nat.and_two_pow_sub_one_eq_mod] at hand
  rw [BitVec.toNat_and, fieldF_eq, slice]
  refine Eq.trans hand ?_
  omega

theorem slice_low_lt (n : Nat) : slice w n 0 < 2 ^ (n + 1) := Nat.mod_lt _ (Nat.two_pow_pos _)

/-- A row of mask 0xF000 tests the group nibble. -/
theorem row_F000_eq (value : Word) : (w &&& (0xF000 : Word) == value) = decide (4096 * fieldF w = value.toNat) := by
  rw [Bool.eq_iff_iff, beq_iff_eq, decide_eq_true_eq, BitVec.toNat_eq, and_F000_toNat]

/-- A row of mask 0xF00F tests the group nibble and the low nibble. -/
theorem row_F00F_eq (value : Word) :
    (w &&& (0xF00F : Word) == value) =
      decide (fieldF w = value.toNat / 4096 ∧ slice w 3 0 = value.toNat % 4096) := by
  have hlt := slice_low_lt w 3
  rw [Bool.eq_iff_iff, beq_iff_eq, decide_eq_true_eq, BitVec.toNat_eq, and_F00F_toNat]
  omega

/-- A row of mask 0xF0FF tests the group nibble and the low byte. -/
theorem row_F0FF_eq (value : Word) :
    (w &&& (0xF0FF : Word) == value) =
      decide (fieldF w = value.toNat / 4096 ∧ slice w 7 0 = value.toNat % 4096) := by
  have hlt := slice_low_lt w 7
  rw [Bool.eq_iff_iff, beq_iff_eq, decide_eq_true_eq, BitVec.toNat_eq, and_F0FF_toNat]
  omega

/-- A row of mask 0xFFFF tests the whole word. -/
theorem row_FFFF_eq (value : Word) : (w &&& (0xFFFF : Word) == value) = decide (w = value) := by
  rw [show (0xFFFF : Word) = BitVec.allOnes 16 by rfl, BitVec.and_allOnes]; rfl

end Sys2Proof
end

section
/-! PROOFS. The decoder and the decode table (30_encoding.md R74, R83), group by group: under a group nibble the rows
of the table test what the decoder dispatches on. -/

namespace Sys2Proof

/-- Settles O7: the rows become tests of the word's fields; the group nibble refutes the rows of every other group, and
those of its own are told apart by the whole word (group 0), the low nibble or the low byte. -/
theorem everyWordDecodesAsItsTableRow : Obligations.EveryWordDecodesAsItsTableRow := by
  intro w
  have hne_cls (hf : fieldF w ≠ 0) : w ≠ 0x00E0#16 := fun h => hf (by rw [h]; rfl)
  have hne_ret (hf : fieldF w ≠ 0) : w ≠ 0x00EE#16 := fun h => hf (by rw [h]; rfl)
  simp only [tableMnemonic, opcodeTable, List.cons_append, List.nil_append, List.find?_cons, row_F000_eq,
    row_F00F_eq, row_F0FF_eq, row_FFFF_eq]
  unfold decodeWord
  split
  case h_1 hf =>
    simp only [decodeGroup0]
    split
    · next h => simp [h, Instr.mnemonic]
    · split <;> simp_all [Instr.mnemonic]
  case h_6 hf | h_10 hf => split <;> simp_all [Instr.mnemonic]
  case h_9 hf | h_15 hf =>
    simp only [decodeGroup8, decodeGroupE]
    split <;> simp_all [Instr.mnemonic]
  case h_16 =>
    have hf : fieldF w = 0xF := fieldF_eq_F_of_ne fun f _ => by interval_cases f <;> assumption
    simp only [decodeGroupF]
    split <;> simp_all [Instr.mnemonic]
  all_goals simp_all [Instr.mnemonic]

/-- Settles O8: nine words, each decoded by evaluation. -/
theorem wordsOfTheSpecDecode : Obligations.WordsOfTheSpecDecode := by
  unfold Obligations.WordsOfTheSpecDecode
  decide

/-- Settles O15: SYS with another address than those of CLS and RET is well-formed, and its meaning is the state as it
was. -/
theorem sysChangesNothing : Obligations.SysChangesNothing := by
  intro nnn s hcls hret
  have hwf : (Instr.sys nnn).wellFormed = true := by simp [Instr.wellFormed, hcls, hret]
  exact ⟨Laws.RoundTrip.sys nnn hwf, rfl⟩

end Sys2Proof
end

section
/-! SUPPORT. The meanings of the instructions, each said once as the state it answers: `exec` and `execWith` unfolded
for one instruction, and by cases where the instruction tests the stack or the keys (41_control_flow.md to
45_keypad_and_timers.md). -/

namespace Sys2Proof.Machine

variable (p : Params) (s : State)

/-! ## The call stack (R110, R113) -/

theorem exec_ret_of_cons {w : Word} {rest : List Word} (h : s.stack = w :: rest) :
    exec .ret s = .next ((s.setStack rest).setPc w) := by
  simp only [exec, execRet, pop_of_cons h]

theorem exec_ret_of_nil (h : s.stack = []) : exec .ret s = .next (s.raise .stackUnderflow 0x0000#16) := by
  simp only [exec, execRet, pop_of_nil h]

theorem execWith_ret : execWith p .ret s = exec .ret s := rfl

theorem execWith_call_of_lt (nnn : Addr) (h : s.stack.length < p.stackDepth) :
    execWith p (.call nnn) s = .next ((s.setStack (s.pc :: s.stack)).setPc (zextAddr nnn)) := by
  simp only [execWith, execCallDepth, push_of_lt h]

theorem execWith_call_of_full (nnn : Addr) (h : p.stackDepth ≤ s.stack.length) :
    execWith p (.call nnn) s = .next (s.raise .stackOverflow s.pc) := by
  simp only [execWith, execCallDepth, push_of_full h]

/-! ## The wait for a key (R182) -/

theorem execWith_ldVxK_of_none (x : RegIdx) (h : pickKey s.key p.keyPick = none) :
    execWith p (.ldVxK x) s = .next (s.setPc (s.pc - 2#16)) := by
  simp only [execWith, execLdVxKPick, h]

theorem execWith_ldVxK_of_some (x : RegIdx) {k : KeyIdx} (h : pickKey s.key p.keyPick = some k) :
    execWith p (.ldVxK x) s = .next (s.setReg x (keyByte k)) := by
  simp only [execWith, execLdVxKPick, h]

/-! ## Accesses to memory, each behind the range guard (R153 to R156, R171) -/

theorem exec_ldBVx (x : RegIdx) :
    exec (.ldBVx x) s =
      .next (s.guardRange s.i.toNat 3 (s.setMem (s.mem.storeBytes s.i.toNat (bcdDigits (s.reg x))))) := rfl

theorem exec_stV0Vx (x : RegIdx) :
    exec (.stV0Vx x) s =
      .next (s.guardRange s.i.toNat (x.val + 1) (s.setMem (s.mem.storeBytes s.i.toNat (s.regsUpTo x)))) := rfl

theorem exec_ldV0Vx (x : RegIdx) :
    exec (.ldV0Vx x) s =
      .next (s.guardRange s.i.toNat (x.val + 1) (s.setRegs (s.loadedRegs x s.i.toNat))) := rfl

theorem exec_drwVxVyN (x y : RegIdx) (n : Fin 16) :
    exec (.drwVxVyN x y n) s =
      .next (s.guardRange s.i.toNat n.val ((s.setFb (s.drawn x y n).fb).setVF (s.drawn x y n).hit)) := rfl

variable {s}

theorem guardRange_of_inRange {base n : Nat} (h : n = 0 ∨ base + n ≤ 0x1000) (body : State) :
    s.guardRange base n body = body := by
  rw [State.guardRange, (inRange_iff base n).2 h, if_pos rfl]

theorem guardRange_of_outside {base n : Nat} (h : n ≠ 0 ∧ 0x1000 < base + n) (body : State) :
    s.guardRange base n body = s.raise .outOfBoundsAccess (outOfBoundsInfo base) := by
  rw [State.guardRange, (inRange_false_iff base n).2 h, if_neg Bool.false_ne_true]

end Sys2Proof.Machine
end

section
/-! SUPPORT. Frames: what each write of a component leaves unchanged, and how frames combine with a fatal condition. -/

namespace Sys2Proof.Machine

variable {w : Touch} {s t u : State}

/-- A frame holds over a sequence of two changes. -/
theorem Frame.trans (h : Frame w s t) (h' : Frame w t u) : Frame w s u where
  regs r hr := (h'.regs r hr).trans (h.regs r hr)
  i hw := (h'.i hw).trans (h.i hw)
  pc hw := (h'.pc hw).trans (h.pc hw)
  stack hw := (h'.stack hw).trans (h.stack hw)
  dt hw := (h'.dt hw).trans (h.dt hw)
  st hw := (h'.st hw).trans (h.st hw)
  key hw := (h'.key hw).trans (h.key hw)
  fb hw := (h'.fb hw).trans (h.fb hw)
  mem hw a := (h'.mem hw a).trans (h.mem hw a)
  halted hw := (h'.halted hw).trans (h.halted hw)
  fault hw := (h'.fault hw).trans (h.fault hw)
  draws hw := (h'.draws hw).trans (h.draws hw)

/-- A frame stays one when HALTED and FAULT are no longer asked for. -/
theorem Frame.withHalt (h : Frame w s t) : Frame { w with halt := true } s t :=
  { h with halted := nofun, fault := nofun }

variable (s)

/-- Nothing touched, nothing changed. -/
theorem Frame.refl : Frame w s s := by
  constructor <;> intros <;> rfl

/-- A fatal condition touches HALTED and FAULT alone (R198, R199). -/
theorem State.raise_frame (w : Touch) (cause : FatalCause) (info : Word) :
    Frame { w with halt := true } s (s.raise cause info) := by
  constructor
  case halted => nofun
  case fault => nofun
  all_goals intros; rfl

/-- Taking a fatal condition is `State.raise` (R196). -/
theorem State.raise_tookFatal (cause : FatalCause) (info : Word) : TookFatal cause info s (s.raise cause info) :=
  ⟨rfl, rfl, s.raise_frame {} cause info⟩

/-- The range guard touches what its body touches, or HALTED and FAULT. -/
theorem guardRange_frame {body : State} (h : Frame w s body) (base n : Nat) :
    Frame { w with halt := true } s (s.guardRange base n body) := by
  rcases guardRange_cases s base n body with ⟨-, hbody⟩ | ⟨-, hraise⟩
  · rw [hbody]; exact h.withHalt
  · rw [hraise]; exact s.raise_frame w _ _

/-- Writing ST touches nothing else. -/
theorem State.setSt_frame (b : Byte) : Frame { st := true } s (s.setSt b) := by
  constructor
  case st => nofun
  all_goals intros; rfl

/-- Writing memory touches nothing else. -/
theorem State.setMem_frame (m : Memory) : Frame { mem := true } s (s.setMem m) := by
  constructor
  case mem => nofun
  all_goals intros; rfl

/-- Writing the register file touches nothing else. -/
theorem State.setRegs_frame (v : Vector Byte 16) : Frame { regs := List.finRange 16 } s (s.setRegs v) := by
  constructor
  case regs => exact fun r hr => absurd (List.mem_finRange r) hr
  all_goals intros; rfl

/-- Moving along the stack touches the stack and PC. -/
theorem State.setStack_setPc_frame (l : List Word) (pc : Word) :
    Frame { pc := true, stack := true } s ((s.setStack l).setPc pc) := by
  constructor
  case pc => nofun
  case stack => nofun
  all_goals intros; rfl

/-- A result with its flag touches VX and VF (R129). -/
theorem State.setResultFlag_frame (x : RegIdx) (b : Byte) (f : Bool) :
    Frame { regs := [x, 15] } s (s.setResultFlag x b f) := by
  constructor
  case regs =>
    intro r hr
    exact s.setResultFlag_reg_of_ne (List.ne_of_not_mem_cons hr)
      (List.ne_of_not_mem_cons (List.not_mem_of_not_mem_cons hr)) b f
  all_goals intros; rfl

/-- A sprite with its collision flag touches the framebuffer and VF (R171). -/
theorem State.setFb_setVF_frame (f : Framebuffer) (hit : Bool) :
    Frame { regs := [15], fb := true } s ((s.setFb f).setVF hit) := by
  constructor
  case regs => exact fun r hr => (s.setFb f).setVF_reg_of_ne (List.ne_of_not_mem_cons hr) hit
  case fb => nofun
  all_goals intros; rfl

/-- A random byte touches VX and the draw counter (R141). -/
theorem State.countDraw_setReg_frame (x : RegIdx) (b : Byte) :
    Frame { regs := [x], draws := true } s (s.countDraw.setReg x b) := by
  constructor
  case regs => exact fun r hr => s.countDraw.setReg_reg_of_ne (List.ne_of_not_mem_cons hr) b
  case draws => nofun
  all_goals intros; rfl

end Sys2Proof.Machine
end

section
/-! SUPPORT. The footprint of an instruction, as the rules of 41_control_flow.md to 45_keypad_and_timers.md name it,
and the one case split over the instructions that shows it: everything outside the footprint is as before (decision
D12). -/

namespace Sys2Proof.Machine

/-- The components the rule of an instruction names as written. -/
def footprint : Instr → Touch
  | .sys _ => {}
  | .cls => { fb := true }
  | .ret | .call _ => { pc := true, stack := true, halt := true }
  | .jp _ | .jpV0Nnn _ | .seVxNn _ _ | .sneVxNn _ _ | .seVxVy _ _ | .sneVxVy _ _ | .skpVx _ | .sknpVx _ =>
    { pc := true }
  | .ldVxNn x _ | .addVxNn x _ | .ldVxVy x _ | .orVxVy x _ | .andVxVy x _ | .xorVxVy x _ | .ldVxDt x => { regs := [x] }
  | .addVxVy x _ | .subVxVy x _ | .shrVx x _ | .subnVxVy x _ | .shlVx x _ => { regs := [x, 15] }
  | .rndVxNn x _ => { regs := [x], draws := true }
  | .ldINnn _ | .addIVx _ | .ldFVx _ => { i := true }
  | .drwVxVyN _ _ _ => { regs := [15], fb := true, halt := true }
  | .ldVxK x => { regs := [x], pc := true }
  | .ldDtVx _ => { dt := true }
  | .ldStVx _ => { st := true }
  | .ldBVx _ | .stV0Vx _ => { mem := true, halt := true }
  | .ldV0Vx _ => { regs := List.finRange 16, halt := true }

variable {p : Params} {i : Instr} {s t : State}

/-- Every instruction keeps what is outside its footprint, at every value of the parameters. -/
theorem execWith_frame (h : execWith p i s = .next t) : Frame (footprint i) s t := by
  cases i with
  | sys nnn => cases h; exact Frame.refl s
  | cls => cases h; exact s.setFb_frame _
  | ret =>
    rw [execWith_ret] at h
    cases hs : s.stack with
    | nil => cases (exec_ret_of_nil s hs).symm.trans h; exact s.raise_frame { pc := true, stack := true } _ _
    | cons w rest => cases (exec_ret_of_cons s hs).symm.trans h; exact (s.setStack_setPc_frame _ _).withHalt
  | call nnn =>
    rcases Nat.lt_or_ge s.stack.length p.stackDepth with hlt | hfull
    · cases (execWith_call_of_lt p s nnn hlt).symm.trans h; exact (s.setStack_setPc_frame _ _).withHalt
    · cases (execWith_call_of_full p s nnn hfull).symm.trans h
      exact s.raise_frame { pc := true, stack := true } _ _
  | jp nnn => cases h; exact s.setPc_frame _
  | jpV0Nnn nnn => cases h; exact s.setPc_frame _
  | seVxNn x nn => cases h; exact s.skipIf_frame _
  | sneVxNn x nn => cases h; exact s.skipIf_frame _
  | seVxVy x y => cases h; exact s.skipIf_frame _
  | sneVxVy x y => cases h; exact s.skipIf_frame _
  | skpVx x => cases h; exact s.skipIf_frame _
  | sknpVx x => cases h; exact s.skipIf_frame _
  | ldVxNn x nn => cases h; exact s.setReg_frame x _
  | addVxNn x nn => cases h; exact s.setReg_frame x _
  | ldVxVy x y => cases h; exact s.setReg_frame x _
  | orVxVy x y => cases h; exact s.setReg_frame x _
  | andVxVy x y => cases h; exact s.setReg_frame x _
  | xorVxVy x y => cases h; exact s.setReg_frame x _
  | ldVxDt x => cases h; exact s.setReg_frame x _
  | addVxVy x y => cases h; exact s.setResultFlag_frame x _ _
  | subVxVy x y => cases h; exact s.setResultFlag_frame x _ _
  | shrVx x y => cases h; exact s.setResultFlag_frame x _ _
  | subnVxVy x y => cases h; exact s.setResultFlag_frame x _ _
  | shlVx x y => cases h; exact s.setResultFlag_frame x _ _
  | rndVxNn x nn => cases h; exact s.countDraw_setReg_frame x _
  | ldINnn nnn => cases h; exact s.setI_frame _
  | addIVx x => cases h; exact s.setI_frame _
  | ldFVx x => cases h; exact s.setI_frame _
  | drwVxVyN x y n => cases h; exact guardRange_frame s (s.setFb_setVF_frame _ _) _ _
  | ldVxK x =>
    cases hk : pickKey s.key p.keyPick with
    | none =>
      cases (execWith_ldVxK_of_none p s x hk).symm.trans h
      exact { s.setPc_frame _ with regs := fun _ _ => rfl, pc := nofun }
    | some k =>
      cases (execWith_ldVxK_of_some p s x hk).symm.trans h
      exact { s.setReg_frame x _ with pc := nofun }
  | ldDtVx x => cases h; exact s.setDt_frame _
  | ldStVx x => cases h; exact s.setSt_frame _
  | ldBVx x => cases h; exact guardRange_frame s (s.setMem_frame _) _ _
  | stV0Vx x => cases h; exact guardRange_frame s (s.setMem_frame _) _ _
  | ldV0Vx x => cases h; exact guardRange_frame s (s.setRegs_frame _) _ _

/-- The footprint at the default parameters. -/
theorem exec_frame (h : exec i s = .next t) : Frame (footprint i) s t :=
  execWith_frame (p := {}) (by rwa [execWith_default])

end Sys2Proof.Machine
end

section
/-! SUPPORT. What an execute part can do to PC, the stack, memory and the fault record, said once for every
instruction and every value of the parameters (41_control_flow.md; 60_exceptions.md R193 to R199); the invariants rest
on it. -/

namespace Sys2Proof.Machine

/-- When an execute part may take a fatal condition, and with which information word (R193, R194, R195). -/
def FatalCondition (p : Params) (s : State) : FatalCause → Word → Prop
  | .stackUnderflow, info => s.stack = [] ∧ info = 0x0000#16
  | .stackOverflow, info => p.stackDepth ≤ s.stack.length ∧ info = s.pc
  | .outOfBoundsAccess, info => 0x1000 ≤ info.toNat

/-- Where an execute part may put PC, returns apart: a jump target, or at most one instruction away (R30, R112 to R119,
R182). -/
def NextPc (s : State) (w : Word) : Prop := w.toNat ≤ 0x10FE ∨ w ∈ [s.pc - 2#16, s.pc, s.pc + 2#16]

/-- The effect of an execute part on PC, the stack, memory, HALTED and FAULT: none of these, a store from I on, a
write of PC, a push, a pop, or a fatal condition taken. -/
inductive Effect (p : Params) (i : Instr) (s t : State) : Prop
  | data (pc : t.pc = s.pc) (stack : t.stack = s.stack) (mem : t.mem = s.mem) (noException : NoException s t)
  | store (bytes : List Byte) (writes : (footprint i).mem = true)
      (next : t = s.setMem (s.mem.storeBytes s.i.toNat bytes))
  | jump (w : Word) (target : NextPc s w) (next : t = s.setPc w)
  | call (nnn : Addr) (room : s.stack.length < p.stackDepth)
      (next : t = (s.setStack (s.pc :: s.stack)).setPc (zextAddr nnn))
  | ret (w : Word) (rest : List Word) (top : s.stack = w :: rest) (next : t = (s.setStack rest).setPc w)
  | fatal (cause : FatalCause) (info : Word) (condition : FatalCondition p s cause info) (next : t = s.raise cause info)

variable {p : Params} {i : Instr} {s t : State}

theorem zextAddr_nextPc (s : State) (nnn : Addr) : NextPc s (zextAddr nnn) := by
  have := nnn.isLt
  exact .inl (by rw [zextAddr_toNat]; omega)

theorem jumpTarget_nextPc (s : State) (nnn : Addr) : NextPc s (s.jumpTarget nnn) := by
  have := nnn.isLt
  have := (s.reg 0).isLt
  exact .inl (by rw [jumpTarget_toNat]; omega)

theorem skipIf_effect (s : State) (c : Bool) : Effect p i s (s.skipIf c) :=
  .jump _ (.inr (by cases c <;> simp)) (skipIf_eq s c)

/-- A change that touches neither PC nor the stack nor memory and raises no condition. -/
theorem effect_of_frame {w : Touch} (h : Frame w s t) (hpc : w.pc = false) (hstack : w.stack = false)
    (hhalt : w.halt = false) (hmem : t.mem = s.mem) : Effect p i s t :=
  .data (h.pc hpc) (h.stack hstack) hmem (h.noException hhalt)

theorem guardRange_effect (s body : State) (h : Effect p i s body) (n : Nat) :
    Effect p i s (s.guardRange s.i.toNat n body) := by
  rcases guardRange_cases s s.i.toNat n body with ⟨-, hbody⟩ | ⟨-, hraise⟩
  · rwa [hbody]
  · have hinfo : 0x1000 ≤ (outOfBoundsInfo s.i.toNat).toNat := by
      rw [outOfBoundsInfo_toNat s.i.isLt]; omega
    exact .fatal .outOfBoundsAccess _ hinfo hraise

/-- The one case split over the instructions from which the invariants follow. -/
theorem execWith_effect (h : execWith p i s = .next t) : Effect p i s t := by
  cases i with
  | ret =>
    rw [execWith_ret] at h
    cases hs : s.stack with
    | nil => cases (exec_ret_of_nil s hs).symm.trans h; exact .fatal .stackUnderflow _ ⟨hs, rfl⟩ rfl
    | cons w rest => cases (exec_ret_of_cons s hs).symm.trans h; exact .ret w rest hs rfl
  | call nnn =>
    rcases Nat.lt_or_ge s.stack.length p.stackDepth with hlt | hfull
    · cases (execWith_call_of_lt p s nnn hlt).symm.trans h; exact .call nnn hlt rfl
    · cases (execWith_call_of_full p s nnn hfull).symm.trans h; exact .fatal .stackOverflow _ ⟨hfull, rfl⟩ rfl
  | jp nnn => cases h; exact .jump _ (zextAddr_nextPc s nnn) rfl
  | jpV0Nnn nnn => cases h; exact .jump _ (jumpTarget_nextPc s nnn) rfl
  | seVxNn _ _ | sneVxNn _ _ | seVxVy _ _ | sneVxVy _ _ | skpVx _ | sknpVx _ => cases h; exact skipIf_effect s _
  | ldVxK x =>
    cases hk : pickKey s.key p.keyPick with
    | none => cases (execWith_ldVxK_of_none p s x hk).symm.trans h; exact .jump _ (.inr (by simp)) rfl
    | some k => cases (execWith_ldVxK_of_some p s x hk).symm.trans h; exact .data rfl rfl rfl ⟨rfl, rfl⟩
  | drwVxVyN x y n =>
    cases h
    have hmem : ((s.setFb (s.drawn x y n).fb).setVF (s.drawn x y n).hit).mem = s.mem := by simp
    exact guardRange_effect s _ (effect_of_frame (s.setFb_setVF_frame _ _) rfl rfl rfl hmem) _
  | ldV0Vx x =>
    cases h
    exact guardRange_effect s _ (effect_of_frame (s.setRegs_frame _) rfl rfl rfl (s.setRegs_mem _)) _
  | ldBVx _ | stV0Vx _ => cases h; exact guardRange_effect s (s.setMem _) (.store _ rfl rfl) _
  | _ => cases h; exact .data rfl rfl rfl ⟨rfl, rfl⟩

/-- Memory is the same data unless an instruction with memory in its footprint stored to it. -/
theorem Effect.mem_eq (h : Effect p i s t) (hw : (footprint i).mem = false) : t.mem = s.mem := by
  cases h with
  | data _ _ hmem _ => exact hmem
  | store _ hwrites _ => rw [hw] at hwrites; cases hwrites
  | jump _ _ hnext | call _ _ hnext | ret _ _ _ hnext | fatal _ _ _ hnext => rw [hnext]; rfl

/-- Every execute part keeps the canonical form of memory (log 7). -/
theorem Effect.mem_wf (h : Effect p i s t) (hwf : s.mem.wf = true) : t.mem.wf = true := by
  cases h with
  | data _ _ hmem _ => rwa [hmem]
  | store bytes _ hnext => rw [hnext]; exact Memory.storeBytes_wf hwf _ bytes
  | jump _ _ hnext | call _ _ hnext | ret _ _ _ hnext | fatal _ _ _ hnext => rw [hnext]; exact hwf

end Sys2Proof.Machine
end

section
/-! PROOFS. The invariant of stack, PC, memory and fault record (10_state.md R25, R30, R35): it holds after reset, and
every effect of an execute part keeps it where a fetch has put PC. -/

namespace Sys2Proof.Machine

variable {p : Params} {i : Instr} {s t : State}

/-! ## Reset -/

theorem resetWith_mem_wf (p : Params) : (resetWith p).mem.wf = true := Memory.storeBytes_wf Memory.reset_wf _ _

theorem resetWith_inv (p : Params) : (resetWith p).Inv p :=
  have hpc : (0x0200#16).toNat ≤ 0x10FE := by decide
  ⟨Nat.zero_le _, nofun, hpc, resetWith_mem_wf p, rfl⟩

/-- Without a fault record there is nothing to describe. -/
theorem faultDescribes_of_none (h : s.fault = none) : s.FaultDescribes p := by
  simp only [State.FaultDescribes, h]

/-- Settles O50: the reset state has an empty stack, PC at 0x200, canonical memory and no fault record. -/
theorem resetMeetsTheInvariant : Obligations.ResetMeetsTheInvariant := by
  refine ⟨?_, faultDescribes_of_none rfl, fun p => ⟨resetWith_inv p, faultDescribes_of_none rfl⟩⟩
  rw [← resetWith_default]
  exact resetWith_inv {}

/-! ## The step -/

/-- A PC that an execute part chooses, returns apart, stays below the bound of R30 when the fetch left PC in bounds. -/
theorem NextPc.toNat_le {w : Word} (h : NextPc s w) (hlow : 2 ≤ s.pc.toNat) (hhigh : s.pc.toNat ≤ 0x1000) :
    w.toNat ≤ 0x10FE := by
  rcases h with h | h
  · exact h
  · simp only [List.mem_cons, List.not_mem_nil, or_false] at h
    rcases h with rfl | rfl | rfl
    · rw [BitVec.toNat_sub]; simp only [BitVec.toNat_ofNat]; omega
    · omega
    · rw [BitVec.toNat_add]; simp only [BitVec.toNat_ofNat]; omega

/-- Every effect keeps the invariant from an advanced PC: the pushed PC is at most 0x1000, and so is a popped one. -/
theorem Effect.inv (h : Effect p i s t) (hinv : s.Inv p) (hlow : 2 ≤ s.pc.toNat) (hhigh : s.pc.toNat ≤ 0x1000) :
    t.Inv p := by
  obtain ⟨hdepth, hentries, hpc, hmem, hfault⟩ := hinv
  have hwf := h.mem_wf hmem
  cases h with
  | data hpc' hstack _ hnone =>
    exact ⟨by rwa [hstack], by rwa [hstack], by rwa [hpc'], hwf, by rwa [hnone.1, hnone.2]⟩
  | store _ _ hnext => subst hnext; exact ⟨hdepth, hentries, hpc, hwf, hfault⟩
  | jump w htarget hnext => subst hnext; exact ⟨hdepth, hentries, htarget.toNat_le hlow hhigh, hwf, hfault⟩
  | call nnn hroom hnext =>
    subst hnext
    have hnnn := (zextAddr_nextPc s nnn).toNat_le hlow hhigh
    exact ⟨hroom, List.forall_mem_cons.2 ⟨hhigh, hentries⟩, hnnn, hwf, hfault⟩
  | ret w rest htop hnext =>
    subst hnext
    rw [htop] at hdepth hentries
    obtain ⟨hw, hrest⟩ := List.forall_mem_cons.1 hentries
    exact ⟨Nat.le_of_succ_le hdepth, hrest, Nat.le_trans hw (by decide), hwf, hfault⟩
  | fatal _ _ _ hnext => subst hnext; exact ⟨hdepth, hentries, hpc, hwf, rfl⟩

/-- The advance over a fetched word: PC lies between 2 and 0x1000. -/
theorem advance_pc_bounds {op : Word} (h : s.fetch = some op) :
    2 ≤ s.advance.pc.toNat ∧ s.advance.pc.toNat ≤ 0x1000 := by
  have hle := pc_le_of_fetch h
  rw [State.advance_pc, advance_pc_toNat hle]; omega

theorem advance_inv {op : Word} (h : s.fetch = some op) (hinv : s.Inv p) : s.advance.Inv p := by
  obtain ⟨hdepth, hentries, -, hwf, hfault⟩ := hinv
  exact ⟨hdepth, hentries, Nat.le_trans (advance_pc_bounds h).2 (by decide), hwf, hfault⟩

/-- `fetchExecute_cases` of `stepWith`, the effect of the execute part named. -/
theorem stepWith_cases (h : stepWith p s = .next t) :
    s.Running ∧
      ((s.fetch = none ∧ t = s.raise .outOfBoundsAccess s.pc) ∨
        (∃ op, s.fetch = some op ∧ decodeWord op = none ∧ t = s.advance) ∨
        (∃ op i, s.fetch = some op ∧ decodeWord op = some i ∧ Effect p i s.advance t)) := by
  obtain ⟨hr, hnone | hnoInstr | ⟨op, i, hf, hd, hexec⟩⟩ := fetchExecute_cases h
  · exact ⟨hr, .inl hnone⟩
  · exact ⟨hr, .inr (.inl hnoInstr)⟩
  · exact ⟨hr, .inr (.inr ⟨op, i, hf, hd, execWith_effect hexec⟩)⟩

theorem stepWith_inv (hinv : s.Inv p) (h : stepWith p s = .next t) : t.Inv p := by
  obtain ⟨-, ⟨-, rfl⟩ | ⟨op, hf, -, rfl⟩ | ⟨op, i, hf, -, heffect⟩⟩ := stepWith_cases h
  · obtain ⟨hdepth, hentries, hpc, hwf, -⟩ := hinv
    exact ⟨hdepth, hentries, hpc, hwf, rfl⟩
  · exact advance_inv hf hinv
  · obtain ⟨hlow, hhigh⟩ := advance_pc_bounds hf
    exact heffect.inv (advance_inv hf hinv) hlow hhigh

/-- Settles O51: the fetch out of bounds, the word that is no instruction, and every effect keep the invariant. -/
theorem stepKeepsTheInvariant : Obligations.StepKeepsTheInvariant := by
  refine ⟨fun s t hinv h => ?_, fun p s t => stepWith_inv⟩
  rw [← stepWith_default] at h
  exact stepWith_inv hinv h

end Sys2Proof.Machine
end

section
/-! PROOFS. The invariant through every schedule of host operations (20_memory.md R61; decision D19), and with it what
the fault record says of the halted state (60_exceptions.md R193 to R199). -/

namespace Sys2Proof.Machine

variable {p : Params} {i : Instr} {s t : State}

/-! ## Schedules -/

/-- What every operation keeps, every schedule keeps (R61). -/
theorem performAll_induction {P : State → Prop} (hstep : ∀ op s, P s → P (perform op s p).1) (ops : List HostOp)
    (hs : P s) : P (performAll ops s p) := by
  induction ops generalizing s with
  | nil => exact hs
  | cons op ops ih => exact ih (hstep op s hs)

/-- A step operation leaves the state as it was, or the state that the step answers (R92, R96). -/
theorem afterStep_cases (p : Params) (s : State) : s.afterStep p = s ∨ stepWith p s = .next (s.afterStep p) := by
  unfold State.afterStep
  cases stepWith p s with
  | next t => exact .inr rfl
  | fault r => exact .inl rfl
  | refused r => exact .inl rfl

/-- Load changes nothing, or memory from 0x200 on (R90). -/
theorem load_cases (s : State) (bytes : List Byte) :
    (3584 < bytes.length ∧ s.load bytes = (s, .romTooLarge)) ∨
      (bytes.length ≤ 3584 ∧ s.load bytes = (s.setMem (s.mem.storeBytes 0x200 bytes), .ok)) := by
  unfold State.load
  split
  next hlong => exact .inl ⟨hlong, rfl⟩
  next hshort => exact .inr ⟨Nat.not_lt.1 hshort, rfl⟩

theorem perform_inv (op : HostOp) (hinv : s.Inv p) : (perform op s p).1.Inv p := by
  cases op with
  | reset => exact resetWith_inv p
  | load bytes =>
    rw [perform]
    rcases load_cases s bytes with ⟨-, hload⟩ | ⟨-, hload⟩ <;> rw [hload]
    · exact hinv
    · obtain ⟨hdepth, hentries, hpc, hwf, hfault⟩ := hinv
      exact ⟨hdepth, hentries, hpc, Memory.storeBytes_wf hwf _ bytes, hfault⟩
  | step =>
    rw [perform]
    rcases afterStep_cases p s with hsame | hnext
    · rwa [hsame]
    · exact stepWith_inv hinv hnext
  | tick => exact hinv
  | setKey k pressed => exact hinv

/-- Settles O52: by induction over the schedule; each of the five operations keeps the invariant. -/
theorem everyScheduleKeepsTheInvariant : Obligations.EveryScheduleKeepsTheInvariant := by
  intro p ops s
  exact performAll_induction (P := fun s => s.Inv p) (fun op _ => perform_inv op) ops

/-! ## The fault record -/

/-- The record reads the stack and PC alone. -/
theorem faultDescribes_congr (hfault : t.fault = s.fault) (hstack : t.stack = s.stack) (hpc : t.pc = s.pc)
    (h : s.FaultDescribes p) : t.FaultDescribes p := by
  unfold State.FaultDescribes at h ⊢
  rwa [hfault, hstack, hpc]

/-- The record a fatal condition leaves describes the state it leaves: the stack was empty, or full, or PC was advanced
within memory. -/
theorem FatalCondition.faultDescribes {cause : FatalCause} {info : Word} (h : FatalCondition p s cause info)
    (hdepth : s.stack.length ≤ p.stackDepth) (hpc : s.pc.toNat ≤ 0x1000) : (s.raise cause info).FaultDescribes p := by
  cases cause with
  | stackUnderflow => exact h
  | stackOverflow => exact ⟨Nat.le_antisymm hdepth h.1, h.2⟩
  | outOfBoundsAccess => exact .inr ⟨h, hpc⟩

theorem Effect.faultDescribes (h : Effect p i s t) (hnone : s.fault = none)
    (hdepth : s.stack.length ≤ p.stackDepth) (hpc : s.pc.toNat ≤ 0x1000) : t.FaultDescribes p := by
  cases h with
  | data _ _ _ hsame => exact faultDescribes_of_none (hsame.2.trans hnone)
  | store _ _ hnext | jump _ _ hnext | call _ _ hnext | ret _ _ _ hnext =>
    subst hnext; exact faultDescribes_of_none hnone
  | fatal cause info hcond hnext => subst hnext; exact hcond.faultDescribes hdepth hpc

/-- A running machine of the invariant has no fault record (R35). -/
theorem fault_eq_none_of_running (hinv : s.Inv p) (hr : s.Running) : s.fault = none := by
  obtain ⟨-, -, -, -, hfault⟩ := hinv
  rw [hr] at hfault
  exact Option.isNone_iff_eq_none.1 (Option.isSome_eq_false_iff.1 hfault.symm)

theorem stepWith_faultDescribes (hinv : s.Inv p) (h : stepWith p s = .next t) : t.FaultDescribes p := by
  obtain ⟨hr, hcases⟩ := stepWith_cases h
  have hnone : s.fault = none := fault_eq_none_of_running hinv hr
  rcases hcases with ⟨hf, rfl⟩ | ⟨op, hf, -, rfl⟩ | ⟨op, i, hf, -, heffect⟩
  · exact .inl ⟨rfl, (fetch_eq_none_iff s).1 hf⟩
  · exact faultDescribes_of_none hnone
  · exact heffect.faultDescribes hnone hinv.1 (advance_pc_bounds hf).2

theorem perform_faultDescribes (op : HostOp) (hinv : s.Inv p) (h : s.FaultDescribes p) :
    (perform op s p).1.FaultDescribes p := by
  cases op with
  | reset => exact faultDescribes_of_none rfl
  | load bytes =>
    rw [perform]
    rcases load_cases s bytes with ⟨-, hload⟩ | ⟨-, hload⟩ <;> rw [hload]
    · exact h
    · exact faultDescribes_congr (s := s) rfl rfl rfl h
  | step =>
    rw [perform]
    rcases afterStep_cases p s with hsame | hnext
    · rwa [hsame]
    · exact stepWith_faultDescribes hinv hnext
  | tick => exact faultDescribes_congr (s := s) rfl rfl rfl h
  | setKey k pressed => exact faultDescribes_congr (s := s) rfl rfl rfl h

/-- Settles O53: by induction over the schedule with the invariant, which says that only a halted machine has a
record. -/
theorem faultRecordDescribesTheHaltedState : Obligations.FaultRecordDescribesTheHaltedState := by
  intro p ops s hinv hdescribes
  have hboth := performAll_induction (P := fun s => s.Inv p ∧ s.FaultDescribes p)
    (fun op s h => ⟨perform_inv op h.1, perform_faultDescribes op h.1 h.2⟩) ops ⟨hinv, hdescribes⟩
  exact hboth.2

end Sys2Proof.Machine
end

section
/-! PROOFS. Frames of the instruction classes (headers of 41_control_flow.md to 45_keypad_and_timers.md; decision D12)
and the writers of each component (10_state.md R20), read off the footprints. -/

namespace Sys2Proof.Machine

variable {i : Instr}

/-- Settles O55: each of the seven instructions has VX alone for its footprint. -/
theorem registerDestinationFrame : Obligations.RegisterDestinationFrame := by
  intro x y nn s t i hi h
  have hframe := exec_frame h
  simp only [List.mem_cons, List.not_mem_nil, or_false] at hi
  rcases hi with rfl | rfl | rfl | rfl | rfl | rfl | rfl <;> exact hframe

/-- Settles O56: each of the five instructions has PC alone for its footprint. -/
theorem transferFrame : Obligations.TransferFrame := by
  intro x y nn nnn s t i hi h
  have hframe := exec_frame h
  simp only [List.mem_cons, List.not_mem_nil, or_false] at hi
  rcases hi with rfl | rfl | rfl | rfl | rfl <;> exact hframe

/-- Settles O57: each of the four instructions has one component for its footprint. -/
theorem singleComponentFrame : Obligations.SingleComponentFrame :=
  fun _ _ _ _ => ⟨exec_frame, exec_frame, exec_frame, exec_frame⟩

/-! ## The writers of a component, each list read off the footprints constructor by constructor -/

theorem footprint_i (h : (footprint i).i = true) :
    (∃ n, i = .ldINnn n) ∨ (∃ x, i = .addIVx x) ∨ ∃ x, i = .ldFVx x := by
  cases i <;> simp_all [footprint]

theorem footprint_stack (h : (footprint i).stack = true) : i = .ret ∨ ∃ n, i = .call n := by
  cases i <;> simp_all [footprint]

theorem footprint_dt (h : (footprint i).dt = true) : ∃ x, i = .ldDtVx x := by
  cases i <;> simp_all [footprint]

theorem footprint_st (h : (footprint i).st = true) : ∃ x, i = .ldStVx x := by
  cases i <;> simp_all [footprint]

theorem footprint_key (i : Instr) : (footprint i).key = false := by
  cases i <;> rfl

theorem footprint_fb (h : (footprint i).fb = true) : i = .cls ∨ ∃ x y n, i = .drwVxVyN x y n := by
  cases i <;> simp_all [footprint]

theorem footprint_mem (h : (footprint i).mem = true) : (∃ x, i = .ldBVx x) ∨ ∃ x, i = .stV0Vx x := by
  cases i <;> simp_all [footprint]

theorem footprint_halt (h : (footprint i).halt = true) :
    i = .ret ∨ (∃ n, i = .call n) ∨ (∃ x y n, i = .drwVxVyN x y n) ∨ (∃ x, i = .ldBVx x) ∨
      (∃ x, i = .stV0Vx x) ∨ ∃ x, i = .ldV0Vx x := by
  cases i <;> simp_all [footprint]

theorem footprint_draws (h : (footprint i).draws = true) : ∃ x nn, i = .rndVxNn x nn := by
  cases i <;> simp_all [footprint]

/-- A component that changed, where an unset flag keeps it, has its flag set. -/
theorem flag_eq_true_of_ne {α : Type} {flag : Bool} {a b : α} (h : flag = false → a = b) (hne : a ≠ b) : flag = true :=
  Bool.eq_true_of_not_eq_false fun hflag => hne (h hflag)

/-- Settles O58: a component that changed is in the footprint, and each footprint names its writers. -/
theorem componentsAreWrittenOnlyByTheirWriters : Obligations.ComponentsAreWrittenOnlyByTheirWriters := by
  intro p i s t h
  have hf := execWith_frame h
  have hmem := (execWith_effect h).mem_eq
  refine ⟨fun hi => footprint_i (flag_eq_true_of_ne hf.i hi),
    fun hstack => footprint_stack (flag_eq_true_of_ne hf.stack hstack),
    fun hdt => footprint_dt (flag_eq_true_of_ne hf.dt hdt),
    fun hst => footprint_st (flag_eq_true_of_ne hf.st hst),
    hf.key (footprint_key i),
    fun hfb => footprint_fb (flag_eq_true_of_ne hf.fb hfb),
    fun hne => footprint_mem (flag_eq_true_of_ne hmem hne),
    fun hhalt => footprint_halt ?_,
    fun hdraws => footprint_draws (flag_eq_true_of_ne hf.draws hdraws)⟩
  rcases hhalt with hhalted | hfault
  · exact flag_eq_true_of_ne hf.halted hhalted
  · exact flag_eq_true_of_ne hf.fault hfault

end Sys2Proof.Machine
end

section
/-! SUPPORT. Components an instruction does not read: an update of such a component commutes with the shared
operations, and so with the instructions made of them (10_state.md R33, R34, R37). -/

namespace Sys2Proof.Machine

/-- An update of components that the shared operations do not read (KEY, ST, the draw counter): PC and the stack are
kept, and writing either of them, a register or the fault record commutes with it. -/
structure Passive (f : State → State) : Prop where
  pc (s) : (f s).pc = s.pc
  stack (s) : (f s).stack = s.stack
  setReg (s x b) : (f s).setReg x b = f (s.setReg x b)
  setPc (s w) : (f s).setPc w = f (s.setPc w)
  setStack (s l) : (f s).setStack l = f (s.setStack l)
  raise (s cause info) : (f s).raise cause info = f (s.raise cause info)

/-- The state at another place in the sequence of random bytes (log 5). -/
def State.atDraw (s : State) (n : Nat) : State := { s with draws := n }

theorem Passive.setKeys (k : Keypad) : Passive (·.setKeys k) := by constructor <;> intros <;> rfl

theorem Passive.setSt (b : Byte) : Passive (·.setSt b) := by constructor <;> intros <;> rfl

theorem Passive.atDraw (n : Nat) : Passive (·.atDraw n) := by constructor <;> intros <;> rfl

variable {f : State → State} (hf : Passive f) (p : Params) (s : State)
include hf

theorem Passive.skipIf (c : Bool) : (f s).skipIf c = f (s.skipIf c) := by
  rw [skipIf_eq, skipIf_eq, hf.pc, hf.setPc]

/-- The range guard commutes with the update when its body does. -/
theorem Passive.guardRange (base n : Nat) {body body' : State} (hbody : body' = f body) :
    (f s).guardRange base n body' = f (s.guardRange base n body) := by
  rw [State.guardRange, State.guardRange, hf.raise, hbody, apply_ite f]

theorem Passive.ret : execWith p .ret (f s) = mapNext f (execWith p .ret s) := by
  rw [execWith_ret, execWith_ret]
  cases hs : s.stack with
  | nil => rw [exec_ret_of_nil s hs, exec_ret_of_nil (f s) ((hf.stack s).trans hs), hf.raise]; rfl
  | cons w rest =>
    rw [exec_ret_of_cons s hs, exec_ret_of_cons (f s) ((hf.stack s).trans hs), hf.setStack, hf.setPc]; rfl

theorem Passive.call (nnn : Addr) : execWith p (.call nnn) (f s) = mapNext f (execWith p (.call nnn) s) := by
  rcases Nat.lt_or_ge s.stack.length p.stackDepth with hlt | hfull
  · rw [execWith_call_of_lt p s nnn hlt, execWith_call_of_lt p (f s) nnn (by rwa [hf.stack]), hf.pc, hf.stack,
      hf.setStack, hf.setPc]; rfl
  · rw [execWith_call_of_full p s nnn hfull, execWith_call_of_full p (f s) nnn (by rwa [hf.stack]), hf.pc,
      hf.raise]; rfl

/-- The wait reads the keys, so the update has to keep them. -/
theorem Passive.ldVxK (x : RegIdx) (hkey : (f s).key = s.key) :
    execWith p (.ldVxK x) (f s) = mapNext f (execWith p (.ldVxK x) s) := by
  cases hk : pickKey s.key p.keyPick with
  | none =>
    rw [execWith_ldVxK_of_none p s x hk, execWith_ldVxK_of_none p (f s) x (by rwa [hkey]), hf.pc, hf.setPc]; rfl
  | some k =>
    rw [execWith_ldVxK_of_some p s x hk, execWith_ldVxK_of_some p (f s) x (by rwa [hkey]), hf.setReg]; rfl

end Sys2Proof.Machine
end

section
/-! PROOFS. Who reads KEY, ST and RAND (10_state.md R33, R34, R37): every instruction but the named readers does the
same under an update of the component. -/

namespace Sys2Proof.Machine

/-- Settles O59: the skips on a key and the wait apart, an update of KEY commutes with every meaning. -/
theorem onlyKeyInstructionsReadTheKeypad : Obligations.OnlyKeyInstructionsReadTheKeypad := by
  intro p i s k hskp hsknp hwait
  have hk := Passive.setKeys k
  cases i with
  | skpVx x => exact absurd rfl (hskp x)
  | sknpVx x => exact absurd rfl (hsknp x)
  | ldVxK x => exact absurd rfl (hwait x)
  | ret => exact hk.ret p s
  | call nnn => exact hk.call p s nnn
  | seVxNn _ _ | sneVxNn _ _ | seVxVy _ _ | sneVxVy _ _ => exact congrArg Host.Outcome.next (hk.skipIf s _)
  | drwVxVyN _ _ _ | ldBVx _ | stV0Vx _ | ldV0Vx _ => exact congrArg Host.Outcome.next (hk.guardRange s _ _ rfl)
  | _ => rfl

/-- Settles O60: FX18 apart, an update of ST commutes with every meaning, and FX18 overwrites it. -/
theorem noInstructionReadsTheSoundTimer : Obligations.NoInstructionReadsTheSoundTimer := by
  intro p i s b
  have hb := Passive.setSt b
  refine ⟨fun hst => ?_, fun x => rfl⟩
  cases i with
  | ldStVx x => exact absurd rfl (hst x)
  | ret => exact hb.ret p s
  | call nnn => exact hb.call p s nnn
  | ldVxK x => exact hb.ldVxK p s x rfl
  | seVxNn _ _ | sneVxNn _ _ | seVxVy _ _ | sneVxVy _ _ | skpVx _ | sknpVx _ =>
    exact congrArg Host.Outcome.next (hb.skipIf s _)
  | drwVxVyN _ _ _ | ldBVx _ | stV0Vx _ | ldV0Vx _ => exact congrArg Host.Outcome.next (hb.guardRange s _ _ rfl)
  | _ => rfl

/-! ## The random byte (R37, R141) -/

/-- RND apart, no instruction reads the draw counter. -/
theorem execWith_atDraw (p : Params) {i : Instr} (s : State) (n : Nat) (hrnd : ∀ x nn, i ≠ .rndVxNn x nn) :
    execWith p i (s.atDraw n) = mapNext (·.atDraw n) (execWith p i s) := by
  have hn := Passive.atDraw n
  cases i with
  | rndVxNn x nn => exact absurd rfl (hrnd x nn)
  | ret => exact hn.ret p s
  | call nnn => exact hn.call p s nnn
  | ldVxK x => exact hn.ldVxK p s x rfl
  | seVxNn _ _ | sneVxNn _ _ | seVxVy _ _ | sneVxVy _ _ | skpVx _ | sknpVx _ =>
    exact congrArg Host.Outcome.next (hn.skipIf s _)
  | drwVxVyN _ _ _ | ldBVx _ | stV0Vx _ | ldV0Vx _ => exact congrArg Host.Outcome.next (hn.guardRange s _ _ rfl)
  | _ => rfl

/-- RND apart, no instruction reads the parameter RAND. -/
theorem execWith_rand (p : Params) {i : Instr} (s : State) (rand : Nat → Byte) (hrnd : ∀ x nn, i ≠ .rndVxNn x nn) :
    execWith { p with rand := rand } i s = execWith p i s := by
  cases i with
  | rndVxNn x nn => exact absurd rfl (hrnd x nn)
  | _ => rfl

theorem archOutcome_mapNext_atDraw (n : Nat) (o : Host.Outcome State Fault Refusal) :
    archOutcome (mapNext (·.atDraw n) o) = archOutcome o := by
  cases o <;> rfl

/-- On the state of R20, an instruction of a state is the instruction with that state's random byte as its input. -/
theorem archOutcome_execWith (p : Params) (i : Instr) (s : State) (n : Nat) :
    archOutcome (execWith p i s) =
      archOutcome (execWith { p with rand := fun _ => p.rand s.draws } i (s.atDraw n)) := by
  by_cases hrnd : ∀ x nn, i ≠ .rndVxNn x nn
  · rw [execWith_rand p (s.atDraw n) _ hrnd, execWith_atDraw p s n hrnd, archOutcome_mapNext_atDraw]
  · push Not at hrnd
    obtain ⟨x, nn, rfl⟩ := hrnd
    rfl

/-- The cycle reads the draw counter in its execute part alone. -/
theorem archOutcome_stepWith (p : Params) (s : State) :
    archOutcome (stepWith p s) = s.toArchState.step p (p.rand s.draws) := by
  change archOutcome (fetchExecute _ s) = archOutcome (fetchExecute _ (s.atDraw 0))
  cases hr : s.halted with
  | true => rw [fetchExecute_of_halted hr, fetchExecute_of_halted (s := s.atDraw 0) hr]; rfl
  | false =>
    cases hf : s.fetch with
    | none => rw [fetchExecute_of_fetch_none hr hf, fetchExecute_of_fetch_none (s := s.atDraw 0) hr hf]; rfl
    | some op =>
      cases hd : decodeWord op with
      | none =>
        rw [fetchExecute_of_decode_none hr hf hd, fetchExecute_of_decode_none (s := s.atDraw 0) hr hf hd]; rfl
      | some i =>
        rw [fetchExecute_of_decode_some hr hf hd, fetchExecute_of_decode_some (s := s.atDraw 0) hr hf hd]
        exact archOutcome_execWith p i s.advance 0

theorem execWith_rndVxNn (p : Params) (x : RegIdx) (nn : Byte) (s : State) :
    execWith p (.rndVxNn x nn) s = .next (s.countDraw.setReg x (p.rand s.draws &&& nn)) := rfl

/-- Settles O28: the byte is masked by NN, whatever it is, and the counter supplies nothing else. -/
theorem rndMasksAFreeByte : Obligations.RndMasksAFreeByte := by
  refine ⟨fun x nn s => ?default, fun p x nn s => ?any, archOutcome_stepWith⟩
  case default =>
    have hreg := s.countDraw.setReg_reg_self x (Config.rand s.draws &&& nn)
    have hmask (k : Nat) (hk : nn.getLsbD k = false) : (Config.rand s.draws &&& nn).getLsbD k = false := by
      rw [BitVec.getLsbD_and, hk, Bool.and_false]
    exact ⟨_, execWith_rndVxNn {} x nn s, hreg, fun k hk => by rw [hreg, hmask k hk], rfl, s.countDraw_setReg_frame x _⟩
  case any =>
    exact ⟨_, execWith_rndVxNn p x nn s, s.countDraw.setReg_reg_self x _, rfl, s.countDraw_setReg_frame x _⟩

end Sys2Proof.Machine
end

section
/-! SUPPORT. The step at any parameters and its report, case by case (40_cycle_and_host_ops.md R92, R95, R96). -/

namespace Sys2Proof.Machine

variable {p : Params} {s t : State}

theorem stepWith_of_halted (h : s.halted = true) : stepWith p s = .fault (.halted s.fault) := fetchExecute_of_halted h

theorem stepWith_of_fetch_none (hr : s.Running) (h : s.fetch = none) :
    stepWith p s = .next (s.raise .outOfBoundsAccess s.pc) := fetchExecute_of_fetch_none hr h

theorem stepWith_of_decode_some (hr : s.Running) {op : Word} (h : s.fetch = some op) {i : Instr}
    (hd : decodeWord op = some i) : stepWith p s = execWith p i s.advance := fetchExecute_of_decode_some hr h hd

/-- The report is read off the outcome, unless a running machine fetched a word that is no instruction (R92). -/
theorem stepReport_eq_reportOf (h : ∀ op, s.fetch = some op → s.halted = true ∨ decodeWord op ≠ none) :
    stepReport s p = reportOf (stepWith p s) := by
  unfold stepReport
  cases hf : s.fetch with
  | none => rfl
  | some op =>
    have hcond : (!s.halted && (decodeWord op).isNone) = false := by
      rcases h op hf with hh | hd
      · simp [hh]
      · simp [Option.ne_none_iff_isSome.1 hd]
    exact if_neg (by rw [hcond]; exact Bool.false_ne_true)

theorem stepReport_of_fetch_none (hf : s.fetch = none) : stepReport s p = reportOf (stepWith p s) :=
  stepReport_eq_reportOf fun op h => by rw [hf] at h; cases h

theorem stepReport_of_decode_some {op : Word} (hf : s.fetch = some op) {i : Instr} (hd : decodeWord op = some i) :
    stepReport s p = reportOf (stepWith p s) := by
  refine stepReport_eq_reportOf fun op' hf' => .inr ?_
  rw [hf] at hf'
  cases hf'
  rw [hd]
  nofun

/-- A halted machine reports its record again (R96). -/
theorem stepReport_of_halted (h : s.halted = true) : stepReport s p = .fatal s.fault := by
  rw [stepReport_eq_reportOf fun _ _ => .inl h, stepWith_of_halted h]
  rfl

theorem reportOf_next_of_halted (h : t.halted = true) : reportOf (.next t) = .fatal t.fault := by
  rw [reportOf, if_pos h]

theorem reportOf_next_of_running (h : t.Running) : reportOf (.next t) = .ok := by
  rw [reportOf, if_neg (by rw [h]; exact Bool.false_ne_true)]

/-- A step that answers one state at every value of the parameters answers it at the defaults. -/
theorem step_of_stepWith {o : Host.Outcome State Fault Refusal} (h : ∀ p, stepWith p s = o) :
    step s = o ∧ ∀ p, stepWith p s = o :=
  ⟨by rw [← stepWith_default]; exact h {}, h⟩

end Sys2Proof.Machine
end

section
/-! PROOFS. The step: it runs the decoded instruction, takes the fatal condition of a fetch beyond memory, leaves a
halted machine as it was, and otherwise answers a next state (40_cycle_and_host_ops.md R92 to R96; 60_exceptions.md
R199, R200). -/

namespace Sys2Proof.Machine

variable {p : Params} {i : Instr} {s t : State}

/-- Settles O9: the two bytes are the fetched word, which decodes to the instruction, and the cycle runs it on the
advanced state. -/
theorem stepRunsTheDecodedInstruction : Obligations.StepRunsTheDecodedInstruction := by
  refine ⟨fun s high low i hr hhigh hlow hdecode => ?_, execWith_default, stepWith_default⟩
  have hf : s.fetch = some (wordOfBytes high low) := fetch_eq_some hhigh hlow
  have hd : decodeWord (wordOfBytes high low) = some i := (decode_eq_ok_iff.1 hdecode).1
  exact ⟨advance_pc_toNat (pc_le_of_fetch hf), step_of_decode_some hr hf hd, fun p => stepWith_of_decode_some hr hf hd⟩

/-- Settles O11: the fetch fails, and the cycle answers the state with the condition taken and nothing else changed. -/
theorem fetchBeyondMemoryHalts : Obligations.FetchBeyondMemoryHalts := by
  intro s hr hpc
  have hf : s.fetch = none := (fetch_eq_none_iff s).2 hpc
  refine ⟨_, step_of_fetch_none hr hf, s.raise_tookFatal _ _, fun p => ⟨stepWith_of_fetch_none hr hf, ?_⟩⟩
  rw [stepReport_of_fetch_none hf, stepWith_of_fetch_none hr hf]
  exact reportOf_next_of_halted (s.raise_halted _ _)

/-- Settles O12: the outcome is the fault, so the step operation keeps the state and reports the record. -/
theorem haltedStepChangesNothing : Obligations.HaltedStepChangesNothing := by
  intro s h
  refine ⟨step_of_halted h, fun p => ?_⟩
  have hafter : s.afterStep p = s := by rw [State.afterStep, stepWith_of_halted h]
  rw [perform, hafter, stepReport_of_halted h]

/-! ## Every running step answers a next state -/

/-- Every instruction answers a next state in every state: RET, CALL and the wait in each of their two cases, every
other instruction outright. -/
theorem execWith_next (p : Params) (i : Instr) (s : State) : ∃ t, execWith p i s = .next t := by
  cases i with
  | ret =>
    rw [execWith_ret]
    cases hs : s.stack with
    | nil => exact ⟨_, exec_ret_of_nil s hs⟩
    | cons w rest => exact ⟨_, exec_ret_of_cons s hs⟩
  | call nnn =>
    rcases Nat.lt_or_ge s.stack.length p.stackDepth with hlt | hfull
    · exact ⟨_, execWith_call_of_lt p s nnn hlt⟩
    · exact ⟨_, execWith_call_of_full p s nnn hfull⟩
  | ldVxK x =>
    cases hk : pickKey s.key p.keyPick with
    | none => exact ⟨_, execWith_ldVxK_of_none p s x hk⟩
    | some k => exact ⟨_, execWith_ldVxK_of_some p s x hk⟩
  | _ => exact ⟨_, rfl⟩

theorem stepWith_next (p : Params) (hr : s.Running) : ∃ t, stepWith p s = .next t := by
  cases hf : s.fetch with
  | none => exact ⟨_, stepWith_of_fetch_none hr hf⟩
  | some op =>
    cases hd : decodeWord op with
    | none => exact ⟨_, stepWith_of_decode_none hr hf hd⟩
    | some i => rw [stepWith_of_decode_some hr hf hd]; exact execWith_next p i s.advance

theorem stepWith_ne_refused (p : Params) (s : State) (r : Refusal) : stepWith p s ≠ .refused r := by
  cases hr : s.halted with
  | true => rw [stepWith_of_halted hr]; nofun
  | false =>
    obtain ⟨t, ht⟩ := stepWith_next p hr
    rw [ht]
    nofun

/-- Settles O13: the clauses about `exec` and `step` are those about every value of the parameters at the defaults. -/
theorem runningStepAlwaysAnswersANextState : Obligations.RunningStepAlwaysAnswersANextState := by
  unfold Obligations.RunningStepAlwaysAnswersANextState
  rw [← execWith_default, ← stepWith_default]
  exact ⟨execWith_next {}, execWith_next, fun s => stepWith_next {}, fun p s => stepWith_next p,
    fun p s r => ⟨stepWith_ne_refused {} s r, stepWith_ne_refused p s r⟩⟩

/-- Settles O14: a word that is no instruction does not halt; in the other two cases the report is read off the next
state. -/
theorem stepReportSaysWhetherTheStepHalted : Obligations.StepReportSaysWhetherTheStepHalted := by
  intro p s t hr h
  have hno_instr {op : Word} (hf : s.fetch = some op) (hd : decodeWord op = none) : t.halted = false := by
    cases (stepWith_of_decode_none hr hf hd).symm.trans h
    exact hr
  refine ⟨fun hhalt => ?halted, fun hrun op i hf hd => ?ok, fun op hf hd => ⟨hno_instr hf hd, ?noInstr⟩⟩
  case halted =>
    rw [stepReport_eq_reportOf, h, reportOf_next_of_halted hhalt]
    intro op hf
    refine .inr fun hd => ?_
    rw [hno_instr hf hd] at hhalt
    cases hhalt
  case ok => rw [stepReport_of_decode_some hf hd, h, reportOf_next_of_running hrun]
  case noInstr => exact stepReport_of_decode_none hr hf hd

end Sys2Proof.Machine
end

section
/-! PROOFS. Two steps that leave the whole state as it was: the wait for a key (45_keypad_and_timers.md R182, R210)
and the jump to itself (41_control_flow.md R112; 70_reset_and_hazards.md R227). Each puts PC back to where the fetch
found it. -/

namespace Sys2Proof.Machine

variable {s : State}

/-- PC put back after the advance gives the state back. -/
theorem advance_setPc_pc (s : State) : s.advance.setPc s.pc = s := rfl

/-- Settles O41: no key is picked, so the wait takes the advance of PC back. -/
theorem waitingForAKeyChangesNothing : Obligations.WaitingForAKeyChangesNothing := by
  intro x s hr hf hkeys
  have hd : decodeWord (formatXNN 0xF x 0x0A#8) = some (.ldVxK x) := Laws.RoundTrip.ldVxK x rfl
  have hstep (p : Params) : stepWith p s = .next s := by
    have hpick : pickKey s.advance.key p.keyPick = none := (pickKey_eq_none_iff s.key p.keyPick).2 hkeys
    rw [stepWith_of_decode_some hr hf hd, execWith_ldVxK_of_none p s.advance x hpick, State.advance_pc,
      BitVec.add_sub_cancel, advance_setPc_pc]
  obtain ⟨hdefault, -⟩ := step_of_stepWith hstep
  refine ⟨hdefault, fun p => ⟨hstep p, ?_⟩⟩
  rw [stepReport_of_decode_some hf hd, hstep p, reportOf_next_of_running hr]

/-- The word of a finished state is the jump to PC, which is an address of 12 bits (R227). -/
theorem jump_to_pc_eq_formatNNN {pc : Word} (h : pc.toNat < 2 ^ 12) :
    0x1000#16 ||| pc = formatNNN 0x1 (pc.setWidth 12) := by
  apply BitVec.eq_of_toNat_eq
  have hor : 2 ^ 12 * 1 + pc.toNat = 2 ^ 12 * 1 ||| pc.toNat := Nat.two_pow_add_eq_or_of_lt h 1
  rw [formatNNN_toNat (by decide), BitVec.toNat_setWidth, Nat.mod_eq_of_lt h, BitVec.toNat_or]
  exact hor.symm

theorem zextAddr_setWidth {pc : Word} (h : pc.toNat < 2 ^ 12) : zextAddr (pc.setWidth 12) = pc := by
  apply BitVec.eq_of_toNat_eq
  rw [zextAddr_toNat, BitVec.toNat_setWidth, Nat.mod_eq_of_lt h]

/-- Settles O54: the fetched word is the jump to PC, which overwrites the advanced PC with the old one. -/
theorem finishedStateIsAFixedPoint : Obligations.FinishedStateIsAFixedPoint := by
  intro s ⟨hr, hf⟩
  have hpc : s.pc.toNat < 2 ^ 12 := Nat.lt_of_le_of_lt (pc_le_of_fetch hf) (by decide)
  have hd : decodeWord (0x1000#16 ||| s.pc) = some (.jp (s.pc.setWidth 12)) := by
    rw [jump_to_pc_eq_formatNNN hpc]
    exact Laws.RoundTrip.jp _ rfl
  have hjump : s.advance.setPc (zextAddr (s.pc.setWidth 12)) = s := by
    rw [zextAddr_setWidth hpc, advance_setPc_pc]
  refine step_of_stepWith fun p => ?_
  rw [stepWith_of_decode_some hr hf hd]
  exact congrArg Host.Outcome.next hjump

end Sys2Proof.Machine
end

section
/-! PROOFS. The call stack, the computed jump and the skips on a key (41_control_flow.md R110, R113, R114, R119;
45_keypad_and_timers.md R180, R181). -/

namespace Sys2Proof.Machine

/-! ## Return and call -/

/-- Settles O19: the top entry is popped into PC; on an empty stack the condition is taken. -/
theorem retPopsTheStackOrUnderflows : Obligations.RetPopsTheStackOrUnderflows :=
  ⟨fun s w rest hs => ⟨_, exec_ret_of_cons s hs, rfl, rfl, s.setStack_setPc_frame rest w⟩,
    fun s hs => ⟨_, exec_ret_of_nil s hs, s.raise_tookFatal _ _⟩⟩

theorem execWith_call_pushes (p : Params) (s : State) (nnn : Addr) (h : s.stack.length < p.stackDepth) :
    ∃ t, execWith p (.call nnn) s = .next t ∧ t.pc.toNat = nnn.toNat ∧ t.stack = s.pc :: s.stack ∧
      Frame { pc := true, stack := true } s t :=
  ⟨_, execWith_call_of_lt p s nnn h, zextAddr_toNat nnn, rfl, s.setStack_setPc_frame _ _⟩

theorem execWith_call_overflows (p : Params) (s : State) (nnn : Addr) (h : s.stack.length = p.stackDepth) :
    ∃ t, execWith p (.call nnn) s = .next t ∧ TookFatal .stackOverflow s.pc s t :=
  ⟨_, execWith_call_of_full p s nnn (Nat.le_of_eq h.symm), s.raise_tookFatal _ _⟩

/-- Settles O20: below the depth the call pushes, at the depth it takes the condition; the first two clauses are the
default depth. -/
theorem callPushesTheReturnAddressOrOverflows : Obligations.CallPushesTheReturnAddressOrOverflows :=
  ⟨execWith_call_pushes {}, execWith_call_overflows {}, execWith_call_pushes, execWith_call_overflows⟩

/-! ## Nested calls -/

theorem execAll_cons_of_next {p : Params} {i : Instr} {s t : State} (h : execWith p i s = .next t) (is : List Instr) :
    execAll p (i :: is) s = execAll p is t := by
  simp only [execAll, h]

/-- The execute parts of two lists run one list after the other. -/
theorem execAll_append_of_next {p : Params} {is : List Instr} {s t : State} (h : execAll p is s = .next t)
    (js : List Instr) : execAll p (is ++ js) s = execAll p js t := by
  induction is generalizing s with
  | nil => cases h; rfl
  | cons i is ih =>
    obtain ⟨u, hu⟩ := execWith_next p i s
    rw [execAll_cons_of_next hu] at h
    rw [List.cons_append, execAll_cons_of_next hu, ih h]

/-- A return right after the push of a call restores the state. -/
theorem execWith_ret_after_call (p : Params) (s : State) (w : Word) :
    execWith p .ret ((s.setStack (s.pc :: s.stack)).setPc w) = .next s :=
  exec_ret_of_cons ((s.setStack (s.pc :: s.stack)).setPc w) (w := s.pc) (rest := s.stack) rfl

/-- Settles O22: by induction over the targets; the calls after the first are undone by all returns but the last, which
undoes the first. -/
theorem nestedCallsReturn : Obligations.NestedCallsReturn := by
  intro p targets
  induction targets with
  | nil => exact fun s _ => rfl
  | cons nnn targets ih =>
    intro s hroom
    rw [List.length_cons] at hroom
    have hcall := execWith_call_of_lt p s nnn (by omega)
    have hinner := ih ((s.setStack (s.pc :: s.stack)).setPc (zextAddr nnn))
      (by rw [State.setPc_stack, State.setStack_stack, List.length_cons]; omega)
    rw [List.length_cons, List.replicate_succ', List.map_cons, List.cons_append, execAll_cons_of_next hcall,
      ← List.append_assoc, execAll_append_of_next hinner, execAll_cons_of_next (execWith_ret_after_call p s _)]
    rfl

/-! ## The computed jump and the skips on a key -/

/-- Settles O21: PC is written with the sum, which 16 bits hold. -/
theorem jpV0SetsPcToTheExactSum : Obligations.JpV0SetsPcToTheExactSum :=
  fun nnn s => ⟨_, rfl, jumpTarget_toNat s nnn, s.setPc_frame _⟩

/-- The key that a register selects is the one numbered by its low 4 bits (R180, R181). -/
theorem keyPressed_eq (s : State) (x : RegIdx) {k : KeyIdx} (hk : k.val = (s.reg x).toNat % 16) :
    s.keyPressed x = s.key[k] := by
  have hindex : keyIndex (s.reg x) = k := Fin.ext ((keyIndex_val _).trans hk.symm)
  subst hindex
  rfl

/-- Settles O40: a skip on the key's flag, and a skip on its negation. -/
theorem keySkipsTestTheKeyOfVx : Obligations.KeySkipsTestTheKeyOfVx := by
  intro x s k hk
  have hpressed := keyPressed_eq s x hk
  refine ⟨⟨_, rfl, ?_, s.skipIf_frame _⟩, ⟨_, rfl, ?_, s.skipIf_frame _⟩⟩
  · rw [skipIf_eq, State.setPc_pc, hpressed]
  · rw [skipIf_eq, State.setPc_pc, hpressed]
    cases s.key[k] <;> rfl

end Sys2Proof.Machine
end

section
/-! PROOFS. Moves, logic, arithmetic and shifts of two registers (42_load_and_alu.md R132 to R140): a write of VX, or
a write of VX and then of the flag. -/

namespace Sys2Proof.Machine

variable {i : Instr} {s : State} {x : RegIdx} {b : Byte} {flag : Bool}

/-! ## Moves and logic -/

/-- An instruction that writes VX alone, its result given bit by bit. -/
theorem exec_setReg_bits (h : exec i s = .next (s.setReg x b)) {bit : Nat → Bool} (hbit : ∀ k, b.getLsbD k = bit k) :
    ∃ t, exec i s = .next t ∧ (x ≠ 15 → t.reg 15 = s.reg 15) ∧ NoException s t ∧ ∀ k, (t.reg x).getLsbD k = bit k := by
  obtain ⟨hvf, hno⟩ := s.setReg_keeps_vf_noException x b
  exact ⟨_, h, hvf, hno, by rwa [State.setReg_reg_self]⟩

/-- Settles O24: each is one write of VX, with VY or with the bitwise operation of the two bytes. -/
theorem registerMoveAndLogic : Obligations.RegisterMoveAndLogic := by
  intro x y s
  refine ⟨⟨Laws.RoundTrip.ldVxVy x y rfl, ?move⟩, ⟨Laws.RoundTrip.orVxVy x y rfl, exec_setReg_bits rfl ?or⟩,
    ⟨Laws.RoundTrip.andVxVy x y rfl, exec_setReg_bits rfl ?and⟩,
    ⟨Laws.RoundTrip.xorVxVy x y rfl, exec_setReg_bits rfl ?xor⟩⟩
  case move => exact ⟨_, rfl, s.setReg_reg_self x (s.reg y), s.setReg_keeps_vf_noException x (s.reg y)⟩
  case or => exact fun k => BitVec.getLsbD_or
  case and => exact fun k => BitVec.getLsbD_and
  case xor => exact fun k => BitVec.getLsbD_xor

/-! ## Results with a flag -/

/-- The flag register as a number (R22). -/
theorem setResultFlag_vf_toNat (s : State) (x : RegIdx) (b : Byte) (flag : Bool) :
    ((s.setResultFlag x b flag).reg 15).toNat = flag.toNat := by
  rw [State.setResultFlag_reg_vf]
  cases flag <;> rfl

/-- An instruction that writes a result and then the flag, both given as numbers (R129). -/
theorem exec_resultFlag (h : exec i s = .next (s.setResultFlag x b flag)) {vf : Nat} (hflag : flag.toNat = vf) :
    ∃ t, exec i s = .next t ∧ (x ≠ 15 → t.reg x = b) ∧ (t.reg 15).toNat = vf ∧ Frame { regs := [x, 15] } s t :=
  ⟨_, h, fun hx => s.setResultFlag_reg_result hx b flag, (setResultFlag_vf_toNat s x b flag).trans hflag,
    s.setResultFlag_frame x b flag⟩

theorem toNat_decide_eq_ite (c : Prop) [Decidable c] : (decide c).toNat = if c then 1 else 0 := by
  split <;> simp_all

/-- The difference of bytes is the integer difference modulo 256. -/
theorem sub_toNat_int (a b : Byte) : ((a - b).toNat : Int) = ((a.toNat : Int) - b.toNat) % 256 := by
  have := b.isLt
  rw [BitVec.toNat_sub]
  omega

/-- Settles O25: the sum of bytes is the sum modulo 256, and the flag is the carry. -/
theorem addWithCarry : Obligations.AddWithCarry := by
  intro x y s
  obtain ⟨t, hexec, hx, hvf, hframe⟩ := exec_resultFlag (i := .addVxVy x y) (s := s) rfl (toNat_decide_eq_ite _)
  exact ⟨t, hexec, fun hne => by rw [hx hne, BitVec.toNat_add], hvf, hframe⟩

/-- Settles O26: the two differences, each with the strict comparison of the old operands. -/
theorem subtractWithStrictGreaterFlag : Obligations.SubtractWithStrictGreaterFlag := by
  intro x y s
  constructor
  · obtain ⟨t, hexec, hx, hvf, hframe⟩ := exec_resultFlag (i := .subVxVy x y) (s := s) rfl (toNat_decide_eq_ite _)
    exact ⟨t, hexec, fun hne => by rw [hx hne, sub_toNat_int], hvf, hframe⟩
  · obtain ⟨t, hexec, hx, hvf, hframe⟩ := exec_resultFlag (i := .subnVxVy x y) (s := s) rfl (toNat_decide_eq_ite _)
    exact ⟨t, hexec, fun hne => by rw [hx hne, sub_toNat_int], hvf, hframe⟩

theorem lowBit_toNat (a : Byte) : (lowBit a).toNat = a.toNat % 2 := by
  rw [lowBit, BitVec.getLsbD, Nat.toNat_testBit, Nat.pow_zero, Nat.div_one]

theorem highBit_toNat (a : Byte) : (highBit a).toNat = a.toNat / 128 := by
  have := a.isLt
  rw [highBit, BitVec.getLsbD, Nat.toNat_testBit]
  omega

/-- Settles O27: halving and doubling, with the bit shifted out as the flag. -/
theorem shiftsMoveVxByOneBit : Obligations.ShiftsMoveVxByOneBit := by
  intro x y s
  constructor
  · obtain ⟨t, hexec, hx, hvf, hframe⟩ := exec_resultFlag (i := .shrVx x y) (s := s) rfl (lowBit_toNat _)
    exact ⟨t, hexec, fun hne => by rw [hx hne, BitVec.toNat_ushiftRight, Nat.shiftRight_eq_div_pow], hvf, hframe⟩
  · obtain ⟨t, hexec, hx, hvf, hframe⟩ := exec_resultFlag (i := .shlVx x y) (s := s) rfl (highBit_toNat _)
    exact ⟨t, hexec, fun hne => by rw [hx hne, BitVec.toNat_shiftLeft, Nat.shiftLeft_eq], hvf, hframe⟩

/-- Settles O30: each is one write of I, with the sum or with the glyph's address. -/
theorem addToIndexAndGlyphAddress : Obligations.AddToIndexAndGlyphAddress :=
  fun x s => ⟨⟨_, rfl, indexPlus_toNat s.i (s.reg x), s.setI_frame _⟩,
    ⟨_, rfl, glyphAddr_toNat (s.reg x), s.setI_frame _⟩⟩

end Sys2Proof.Machine
end

section
/-! PROOFS. Canonical memory (20_memory.md section 1; log 7) and the reset contents (10_state.md R38): cells that
differ from the reset contents, at rising addresses, are determined by what is read. -/

namespace Sys2Proof.Machine

/-! ## Equal reads are equal data -/

/-- A listed cell lies in memory and differs from the reset contents. -/
theorem cellAt_some {lo a : Nat} {b : Byte} {cells : List Host.Cell} (h : cellsWf lo cells = true)
    (ha : cellAt a cells = some b) : a ≤ 0xFFF ∧ b ≠ resetByte a := by
  induction cells generalizing lo with
  | nil => cases ha
  | cons c cells ih =>
    obtain ⟨a₁, b₁⟩ := c
    obtain ⟨-, hbound, hne, htail⟩ := cellsWf_cons.1 h
    rw [cellAt] at ha
    split at ha
    · next heq => cases ha; subst heq; exact ⟨hbound, hne⟩
    · exact ih htail ha

/-- In canonical memory a cell is what is read where that differs from the reset contents. -/
theorem Memory.cellAt_eq (m : Memory) (hwf : m.wf = true) (a : Nat) :
    cellAt a m.cells = (m.read a).filter (· != resetByte a) := by
  cases hc : cellAt a m.cells with
  | none => by_cases ha : 0xFFF < a <;> simp [Memory.read, Option.filter, hc, ha]
  | some b =>
    obtain ⟨hbound, hne⟩ := cellAt_some hwf hc
    simp [Memory.read, Option.filter, hc, Nat.not_lt.2 hbound, hne]

theorem cellAt_cons_self (a : Nat) (b : Byte) (cells : List Host.Cell) : cellAt a ((a, b) :: cells) = some b :=
  if_pos rfl

theorem cellAt_cons_of_ne {a a' : Nat} (h : a' ≠ a) (b : Byte) (cells : List Host.Cell) :
    cellAt a' ((a, b) :: cells) = cellAt a' cells := if_neg h

/-- The first cell of a rising list is the lowest one listed. -/
theorem head_le_of_cellAt {lo a a' : Nat} {b b' : Byte} {cells : List Host.Cell}
    (h : cellsWf lo ((a, b) :: cells) = true) (ha : cellAt a' ((a, b) :: cells) = some b') : a ≤ a' := by
  by_contra hlt
  obtain ⟨-, hrest⟩ := cellsWf_cons.1 h
  rw [cellAt_eq_none_of_lt (cellsWf_cons.2 ⟨Nat.le_refl a, hrest⟩) (by omega)] at ha
  cases ha

/-- Rising lists that list the same cells are the same list. -/
theorem cells_ext {lo : Nat} {cells cells' : List Host.Cell} (h : cellsWf lo cells = true)
    (h' : cellsWf lo cells' = true) (heq : ∀ a, cellAt a cells = cellAt a cells') : cells = cells' := by
  induction cells generalizing lo cells' with
  | nil =>
    cases cells' with
    | nil => rfl
    | cons c _ => have := heq c.1; rw [cellAt_cons_self] at this; cases this
  | cons c cells ih =>
    obtain ⟨a, b⟩ := c
    have hhead : cellAt a cells' = some b := (heq a).symm.trans (cellAt_cons_self a b cells)
    cases cells' with
    | nil => cases hhead
    | cons c' cells' =>
      obtain ⟨a', b'⟩ := c'
      have hhead' : cellAt a' ((a, b) :: cells) = some b' := (heq a').trans (cellAt_cons_self a' b' cells')
      obtain rfl : a = a' := Nat.le_antisymm (head_le_of_cellAt h hhead') (head_le_of_cellAt h' hhead)
      obtain rfl : b' = b := by rw [cellAt_cons_self] at hhead; exact Option.some.inj hhead
      obtain ⟨-, -, -, htail⟩ := cellsWf_cons.1 h
      obtain ⟨-, -, -, htail'⟩ := cellsWf_cons.1 h'
      refine congrArg _ (ih htail htail' fun a' => ?_)
      by_cases ha : a' = a
      · subst ha
        rw [cellAt_eq_none_of_lt htail (Nat.lt_succ_self _), cellAt_eq_none_of_lt htail' (Nat.lt_succ_self _)]
      · have := heq a'
        rwa [cellAt_cons_of_ne ha, cellAt_cons_of_ne ha] at this

/-- Settles O2: what is read determines the cells, and the cells the list. -/
theorem canonicalMemoriesThatReadAlikeAreEqual : Obligations.CanonicalMemoriesThatReadAlikeAreEqual := by
  intro m m' hwf hwf' hread
  refine congrArg Memory.mk (cells_ext (lo := 0) hwf hwf' fun a => ?_)
  rw [m.cellAt_eq hwf, m'.cellAt_eq hwf', hread]

/-! ## The reset contents -/

/-- What memory holds after reset: FONT in its range, and outside it the contents of the empty memory (R31, R38). -/
theorem resetWith_read (p : Params) (a : Nat) :
    (resetWith p).mem.read a =
      if 0x050 ≤ a ∧ a ≤ 0x09F then p.font[a - 0x050]? else State.reset.mem.read a := by
  have hlen : p.font.toList.length = 80 := Vector.length_toList
  have hread := Memory.storeBytes_read Memory.reset_wf (a := 0x050) (bytes := p.font.toList) (by omega) a
  have hcond : (0x050 ≤ a ∧ a < 0x050 + p.font.toList.length) ↔ (0x050 ≤ a ∧ a ≤ 0x09F) := by omega
  rw [resetWith, State.setMem_mem, hread, if_congr hcond Vector.getElem?_toList rfl]

theorem resetByte_of_outside_font {a : Nat} (h : a < 0x050 ∨ 0x09F < a) : resetByte a = 0x00#8 :=
  if_neg (by omega)

/-- Settles O1: component by component; memory by the bytes of FONT stored over the empty memory. -/
theorem resetGivesTheTableOfResetValues : Obligations.ResetGivesTheTableOfResetValues := by
  refine ⟨resetWith_default, fun p s => rfl, fun p => ⟨rfl, ?regs, rfl, rfl, rfl, rfl, ?keys, ?pixels, rfl, rfl,
    ?font, ?zero⟩⟩
  case regs => exact fun r => Vector.getElem_replicate r.isLt
  case keys => exact fun k => Vector.getElem_replicate k.isLt
  case pixels => exact pixel_clearedFb
  case font => exact fun a hlo hhi => by rw [resetWith_read, if_pos ⟨hlo, hhi⟩]
  case zero =>
    intro a ha hout
    rw [resetWith_read, if_neg (by omega), Memory.reset_read ha, resetByte_of_outside_font hout]

end Sys2Proof.Machine
end

section
/-! PROOFS. FX33, FX55 and FX65 (43_index_and_memory.md R153 to R156): the effect of an access inside memory, and the
fatal condition of one that reaches beyond it. -/

namespace Sys2Proof.Machine

variable {x : RegIdx} {s : State}

/-! ## The meanings inside memory -/

theorem exec_ldBVx_of_inside (h : s.i.toNat + 2 ≤ 0xFFF) :
    exec (.ldBVx x) s = .next (s.setMem (s.mem.storeBytes s.i.toNat (bcdDigits (s.reg x)))) := by
  rw [exec_ldBVx, guardRange_of_inRange (by omega)]

theorem exec_stV0Vx_of_inside (h : s.i.toNat + x.val ≤ 0xFFF) :
    exec (.stV0Vx x) s = .next (s.setMem (s.mem.storeBytes s.i.toNat (s.regsUpTo x))) := by
  rw [exec_stV0Vx, guardRange_of_inRange (by omega)]

theorem exec_ldV0Vx_of_inside (h : s.i.toNat + x.val ≤ 0xFFF) :
    exec (.ldV0Vx x) s = .next (s.setRegs (s.loadedRegs x s.i.toNat)) := by
  rw [exec_ldV0Vx, guardRange_of_inRange (by omega)]

/-- Bytes stored inside memory: each is read back at its place, every other address and component is as before. -/
theorem store_spec (s : State) (hwf : s.mem.wf = true) {base : Nat} {bytes : List Byte}
    (h : base + bytes.length ≤ 0x1000) :
    (∀ k < bytes.length, (s.setMem (s.mem.storeBytes base bytes)).mem.read (base + k) = bytes[k]?) ∧
      (∀ a, a < base ∨ base + bytes.length ≤ a →
        (s.setMem (s.mem.storeBytes base bytes)).mem.read a = s.mem.read a) ∧
      Frame { mem := true } s (s.setMem (s.mem.storeBytes base bytes)) := by
  refine ⟨fun k hk => ?_, fun a ha => ?_, s.setMem_frame _⟩
  · rw [State.setMem_mem, Memory.storeBytes_read hwf h, if_pos (by omega), Nat.add_sub_cancel_left]
  · rw [State.setMem_mem, Memory.storeBytes_read_of_outside hwf ha]

/-- Settles O31: the three digits are stored at I, I + 1 and I + 2. -/
theorem bcdStoresTheDecimalDigits : Obligations.BcdStoresTheDecimalDigits := by
  intro x s hwf hin
  have hlen : (bcdDigits (s.reg x)).length = 3 := rfl
  obtain ⟨hstored, hother, hframe⟩ :=
    store_spec s hwf (base := s.i.toNat) (bytes := bcdDigits (s.reg x)) (by omega)
  exact ⟨_, exec_ldBVx_of_inside hin, hstored 0 (by omega), hstored 1 (by omega), hstored 2 (by omega), hother, hframe⟩

/-- Settles O32: the registers up to VX are stored from I upward. -/
theorem storeRegistersFromIndex : Obligations.StoreRegistersFromIndex := by
  intro x s hwf hin
  have hlen := regsUpTo_length s x
  obtain ⟨hstored, hother, hframe⟩ :=
    store_spec s hwf (base := s.i.toNat) (bytes := s.regsUpTo x) (by omega)
  refine ⟨_, exec_stV0Vx_of_inside hin, fun r hr => ?_, fun a ha => hother a (by omega), hframe⟩
  have hlt : r.val < x.val + 1 := Nat.lt_succ_of_le hr
  rw [hstored r.val (by omega), regsUpTo_getElem? s hr]

/-- Settles O33: the registers up to VX are the bytes read, the others are as before. -/
theorem loadRegistersFromIndex : Obligations.LoadRegistersFromIndex := by
  intro x s hin
  refine ⟨_, exec_ldV0Vx_of_inside hin, fun r hr => ?_, fun r hr => ?_, s.setRegs_frame _⟩
  · have hle : r.val ≤ x.val := hr
    rw [State.setRegs_reg, loadedRegs_getElem, if_pos hr, Memory.read_eq_some_byteAt _ (by omega)]
  · rw [State.setRegs_reg, loadedRegs_getElem, if_neg (not_le_of_gt hr)]

/-! ## Ranges beyond memory -/

/-- A guarded instruction whose range reaches beyond memory takes OutOfBoundsAccess(max(I, 0x1000)) (R156, R195). -/
theorem exec_tookFatal_of_outside {i : Instr} {n : Nat} {body : State}
    (h : exec i s = .next (s.guardRange s.i.toNat n body)) (hout : n ≠ 0 ∧ 0x1000 < s.i.toNat + n) :
    ∃ t, exec i s = .next t ∧ TookFatal .outOfBoundsAccess (BitVec.ofNat 16 (max s.i.toNat 0x1000)) s t := by
  rw [guardRange_of_outside hout] at h
  exact ⟨_, h, s.raise_tookFatal _ _⟩

/-- Settles O34: the four instructions test their ranges before their effects. -/
theorem outOfRangeAccessHaltsWithoutEffect : Obligations.OutOfRangeAccessHaltsWithoutEffect := by
  intro x y n s
  exact ⟨fun h => exec_tookFatal_of_outside (exec_ldBVx s x) (by omega),
    fun h => exec_tookFatal_of_outside (exec_stV0Vx s x) (by omega),
    fun h => exec_tookFatal_of_outside (exec_ldV0Vx s x) (by omega),
    fun hn h => exec_tookFatal_of_outside (exec_drwVxVyN s x y n) (by omega)⟩

/-! ## Stores seen by later reads -/

/-- Settles O35: the load reads at I + r the byte the store put there. -/
theorem storeThenLoadRestoresTheRegisters : Obligations.StoreThenLoadRestoresTheRegisters := by
  intro x s t u between hwf hin hstore hload r hr
  obtain ⟨t', hstore', hstored, -, hframe⟩ := storeRegistersFromIndex x s hwf hin
  cases hstore.symm.trans hstore'
  have hi : (t.setRegs between).i = s.i := hframe.i rfl
  obtain ⟨u', hload', hloaded, -, -⟩ := loadRegistersFromIndex x (t.setRegs between) (by rwa [hi])
  cases hload.symm.trans hload'
  have hread : some (u.reg r) = some (s.reg r) := by rw [hloaded r hr, hi, State.setRegs_mem, hstored r hr]
  exact Option.some.inj hread

/-- A read after a sequence of stores, in the closed form of `overwritten`. -/
theorem storeBytes_read_overwritten {m : Memory} (hwf : m.wf = true) {base : Nat} {bytes : List Byte}
    (h : base + bytes.length ≤ 0x1000) {f : Nat → Byte} (hf : ∀ k < bytes.length, bytes[k]? = some (f k)) {a : Nat}
    (ha : a ≤ 0xFFF) : (m.storeBytes base bytes).read a = some (overwritten m base bytes.length f a) := by
  rw [Memory.storeBytes_read hwf h, overwritten]
  split
  · next hin => exact hf _ (by omega)
  · exact Memory.read_eq_some_byteAt m ha

/-- The fetch after a store: both bytes of the word, stored or old (R63). -/
theorem fetch_after_store (s : State) (hwf : s.mem.wf = true) (hpc : s.pc.toNat ≤ 0xFFE) {base : Nat}
    {bytes : List Byte} (h : base + bytes.length ≤ 0x1000) {f : Nat → Byte}
    (hf : ∀ k < bytes.length, bytes[k]? = some (f k)) :
    (s.setMem (s.mem.storeBytes base bytes)).fetch = some (wordOfBytes
      (overwritten s.mem base bytes.length f s.pc.toNat) (overwritten s.mem base bytes.length f (s.pc.toNat + 1))) :=
  have hread {a : Nat} (ha : a ≤ 0xFFF) := storeBytes_read_overwritten hwf h hf ha
  have hhigh : s.pc.toNat ≤ 0xFFF := by omega
  have hlow : s.pc.toNat + 1 ≤ 0xFFF := by omega
  fetch_eq_some (hread hhigh) (hread hlow)

/-- Settles O36: the fetch reads the memory the store leaves. -/
theorem storedCodeIsFetchedNext : Obligations.StoredCodeIsFetchedNext := by
  intro x s t hwf hpc
  constructor
  · intro hin hexec
    cases (exec_stV0Vx_of_inside hin).symm.trans hexec
    have hlen := regsUpTo_length s x
    refine ⟨rfl, ?_⟩
    rw [← hlen]
    refine fetch_after_store s hwf hpc (by omega) fun k hk => ?_
    have hval : (Fin.ofNat 16 k).val = k := Nat.mod_eq_of_lt (by omega)
    have hle : Fin.ofNat 16 k ≤ x := Fin.le_def.2 (by omega)
    rw [← regsUpTo_getElem? s hle, hval]
  · intro hin hexec
    cases (exec_ldBVx_of_inside hin).symm.trans hexec
    have hlen : (bcdDigits (s.reg x)).length = 3 := rfl
    refine ⟨rfl, fetch_after_store s hwf hpc (by omega) fun k hk => ?_⟩
    rw [List.getD_eq_getElem _ _ hk, List.getElem?_eq_getElem hk]

end Sys2Proof.Machine
end

section
/-! PROOFS. Load, and the stickiness of HALTED and FAULT under the host's operations (40_cycle_and_host_ops.md R90, R96,
R101; 60_exceptions.md R202). -/

namespace Sys2Proof.Machine

/-- Settles O48: too long a program is rejected whole; any other is a store of its bytes from 0x200 on. -/
theorem loadPlacesTheProgramOrRejectsIt : Obligations.LoadPlacesTheProgramOrRejectsIt := by
  intro s bytes hwf
  rcases load_cases s bytes with ⟨hlong, hload⟩ | ⟨hshort, hload⟩
  · exact ⟨fun _ => by rw [perform, hload], fun h => absurd hlong (Nat.not_lt.2 h)⟩
  · refine ⟨fun h => absurd h (Nat.not_lt.2 hshort), fun _ => ⟨_, by rw [perform, hload], ?_⟩⟩
    exact store_spec s hwf (by omega)

/-- Settles O49: load, tick and key input do not write HALTED or FAULT, and a step of a halted machine writes nothing.
-/
theorem onlyResetClearsHalted : Obligations.OnlyResetClearsHalted := by
  intro p op s h
  refine ⟨fun hop => ?_, rfl, rfl⟩
  cases op with
  | reset => exact absurd rfl hop
  | load bytes =>
    rw [perform]
    rcases load_cases s bytes with ⟨-, hload⟩ | ⟨-, hload⟩ <;> rw [hload] <;> exact ⟨h, rfl⟩
  | step => rw [(haltedStepChangesNothing s h).2 p]; exact ⟨h, rfl⟩
  | tick => exact ⟨h, rfl⟩
  | setKey k pressed => exact ⟨h, rfl⟩

end Sys2Proof.Machine
end

section
/-! PROOFS. DXYN (44_display.md R171, R172): the pixels and the collision in the closed form of the sprite, and the
same sprite drawn twice. -/

namespace Sys2Proof.Machine

variable (s : State) (x y : RegIdx) (n : Fin 16)

theorem drawn_pixel (row col : Nat) :
    pixel (s.drawn x y n).fb row col = (pixel s.fb row col ^^ spriteCovers s x y n row col) := by
  rw [spriteCovers_eq_spriteOn]
  exact (drawSprite_spec _ _ _ _ _).1 row col

theorem drawn_hit :
    (s.drawn x y n).hit = true ↔ ∃ row col, spriteCovers s x y n row col = true ∧ pixel s.fb row col = true := by
  simp only [spriteCovers_eq_spriteOn, State.drawn, (drawSprite_spec _ _ _ _ _).2, Bool.false_eq_true, false_or]

/-- VF as a flag is 1 exactly when the flag is set (R22). -/
theorem setVF_reg_vf_eq_one_iff (flag : Bool) : (s.setVF flag).reg 15 = 0x01#8 ↔ flag = true := by
  rw [State.setVF_reg_vf]
  cases flag <;> simp

theorem setVF_reg_vf_eq_zero_or_one (flag : Bool) :
    (s.setVF flag).reg 15 = 0x00#8 ∨ (s.setVF flag).reg 15 = 0x01#8 := by
  rw [State.setVF_reg_vf]
  cases flag <;> simp

/-- Settles O38: the drawn canvas is the framebuffer under the sprite, and its hit the flag. -/
theorem drwXorsTheSpriteAndReportsCollision : Obligations.DrwXorsTheSpriteAndReportsCollision := by
  intro x y n s hin
  refine ⟨_, exec_drw_of_inRange hin, drawn_pixel s x y n, setVF_reg_vf_eq_zero_or_one _ _, ?_,
    s.setFb_setVF_frame _ _⟩
  rw [setVF_reg_vf_eq_one_iff, drawn_hit]

/-- The pixels of a sprite depend on VX, VY, I and memory alone. -/
theorem spriteCovers_congr {s s' : State} {x y : RegIdx} (hmem : s'.mem = s.mem) (hi : s'.i = s.i)
    (hx : s'.reg x = s.reg x) (hy : s'.reg y = s.reg y) (n : Fin 16) :
    spriteCovers s' x y n = spriteCovers s x y n := by
  funext row col
  rw [spriteCovers, spriteCovers, hmem, hi, hx, hy]

/-- Settles O39: each pixel is exclusive-ORed with the same bit twice; over a region that was off, the pixels on after
the first draw are those of the sprite. -/
theorem drawingTwiceRestoresTheFramebuffer : Obligations.DrawingTwiceRestoresTheFramebuffer := by
  intro x y n s t t' u hin hdraw hfb hmem hi hx hy hdraw'
  obtain ⟨t₁, ht₁, hpixel, hflag, hhit, -⟩ := drwXorsTheSpriteAndReportsCollision x y n s hin
  cases hdraw.symm.trans ht₁
  obtain ⟨u₁, hu₁, hpixel', -, hhit', -⟩ := drwXorsTheSpriteAndReportsCollision x y n t' (by rwa [hi])
  cases hdraw'.symm.trans hu₁
  rw [spriteCovers_congr hmem hi hx hy, hfb] at hpixel' hhit'
  refine ⟨fb_ext fun row col => ?_, fun hoff => ⟨hflag.resolve_right fun hone => ?_, hhit'.trans ?_⟩⟩
  · rw [hpixel', hpixel, Bool.xor_assoc, Bool.xor_self, Bool.xor_false]
  · obtain ⟨row, col, hcovers, hon⟩ := hhit.1 hone
    rw [hoff row col hcovers] at hon
    cases hon
  · refine exists_congr fun row => exists_congr fun col => and_iff_left_of_imp fun hcovers => ?_
    rw [hpixel, hoff row col hcovers, hcovers, Bool.false_xor]

end Sys2Proof.Machine
end

section
/-! PROOFS. The wait with a key pressed (45_keypad_and_timers.md R182) and the timers under ticks (R185;
40_cycle_and_host_ops.md R97). -/

namespace Sys2Proof.Machine

/-! ## The wait -/

theorem keyByte_toNat (k : KeyIdx) : (keyByte k).toNat = k.val := by
  have := k.isLt
  rw [keyByte, BitVec.toNat_ofNat]
  omega

/-- With a key pressed the wait loads the number of a picked key. -/
theorem execWith_ldVxK_of_pressed (p : Params) (x : RegIdx) (s : State) {k : KeyIdx} (hk : s.key[k] = true) :
    ∃ (t : State) (j : KeyIdx), execWith p (.ldVxK x) s = .next t ∧ pickKey s.key p.keyPick = some j ∧
      (t.reg x).toNat = j.val ∧ Frame { regs := [x] } s t := by
  cases hj : pickKey s.key p.keyPick with
  | none => rw [(pickKey_eq_none_iff s.key p.keyPick).1 hj k] at hk; cases hk
  | some j =>
    refine ⟨_, j, execWith_ldVxK_of_some p s x hj, rfl, ?_, s.setReg_frame x _⟩
    rw [State.setReg_reg_self, keyByte_toNat]

/-- Settles O42: the picked key is pressed; KEY_PICK's answer is picked when it is pressed, and the default answers the
smallest pressed key. -/
theorem waitTakesAPressedKey : Obligations.WaitTakesAPressedKey := by
  intro x s k hk
  constructor
  · obtain ⟨t, j, hexec, hj, hreg, hframe⟩ := execWith_ldVxK_of_pressed {} x s hk
    have hdefault : some (Config.keyPick s.key) = some j := (pickKey_of_pressed (keyPick_spec hk).1).symm.trans hj
    cases hdefault
    exact ⟨t, _, hexec, pickKey_pressed hj, hreg, fun k' hk' => (keyPick_spec hk').2, hframe⟩
  · intro p
    obtain ⟨t, j, hexec, hj, hreg, hframe⟩ := execWith_ldVxK_of_pressed p x s hk
    have hpressed := pickKey_pressed hj
    refine ⟨t, j, hexec, hpressed, hreg, fun hpick => ?_, fun honly => honly j hpressed, hframe⟩
    exact Option.some.inj (hj.symm.trans (pickKey_of_pressed hpick))

/-! ## The timers -/

/-- A tick takes one off a timer, never below 0 (R97). -/
theorem tickTimer_toNat (b : Byte) : (tickTimer b).toNat = b.toNat - 1 := by
  have := b.isLt
  rw [tickTimer]
  split
  · rw [BitVec.toNat_sub]; simp only [BitVec.toNat_ofNat]; omega
  · omega

theorem State.tick_frame (s : State) : Frame { dt := true, st := true } s s.tick := by
  constructor
  case dt => nofun
  case st => nofun
  all_goals intros; rfl

/-- Settles O45: a tick is a write of the two timers. -/
theorem tickDecrementsTheTimers : Obligations.TickDecrementsTheTimers := by
  intro s
  have htimer (b : Byte) : (tickTimer b).toNat = if b.toNat > 0 then b.toNat - 1 else 0 := by
    rw [tickTimer_toNat]
    split <;> omega
  exact ⟨rfl, htimer s.dt, htimer s.st, s.tick_frame⟩

theorem performAll_ticks_succ (n : Nat) (s : State) :
    performAll (List.replicate (n + 1) .tick) s = performAll (List.replicate n .tick) s.tick := rfl

/-- Settles O46: by induction over the number of ticks. -/
theorem ticksCountDownToZero : Obligations.TicksCountDownToZero := by
  intro n
  induction n with
  | zero => exact fun s => ⟨rfl, rfl, Frame.refl s⟩
  | succ n ih =>
    intro s
    obtain ⟨hdt, hst, hframe⟩ := ih s.tick
    have hdt1 : s.tick.dt.toNat = s.dt.toNat - 1 := tickTimer_toNat s.dt
    have hst1 : s.tick.st.toNat = s.st.toNat - 1 := tickTimer_toNat s.st
    rw [performAll_ticks_succ]
    exact ⟨by omega, by omega, s.tick_frame.trans hframe⟩

/-- Settles O44: the sound is active while ST is above 0, and n ticks take n off it. -/
theorem soundIsActiveForVxTicks : Obligations.SoundIsActiveForVxTicks := by
  intro x s
  have hframe := s.setSt_frame (s.reg x)
  refine ⟨Laws.RoundTrip.ldStVx x rfl, _, rfl, s.setSt_st (s.reg x), hframe.regs 15 nofun, hframe.noException rfl,
    fun n => ?_⟩
  obtain ⟨-, hst, -⟩ := ticksCountDownToZero n (s.setSt (s.reg x))
  rw [State.soundActive, decide_eq_true_eq, hst, State.setSt_st]
  omega

end Sys2Proof.Machine
end
